-- ==== Sys2Proof/Word.lean ====
section
/-! DEFINITION. The word types of the core (spec 00 R5, R12): everything in it is unsigned, bit 0 the least significant. -/

namespace Sys2Proof

/-- XLEN = 8: a general register, DT, ST and a byte of memory (R5). -/
abbrev Byte := BitVec 8

/-- ALEN = ILEN = 16: I, PC, a stack slot and an instruction word (R5). -/
abbrev Word := BitVec 16

/-- `nnn`, an unsigned 12-bit address 0x000 to 0xFFF (R13, R72). -/
abbrev Addr12 := BitVec 12

/-- A general register's number 0 to 15: the fields `x` and `y` (R13, R21, R72). -/
abbrev RegIdx := Fin 16

/-- VF, the register that doubles as the flag (R22). -/
abbrev vF : RegIdx := 15

end Sys2Proof
end

