-- ==== Sys2Proof/Config.lean ====
section
/-! DEFINITION. What is fixed for the machine: the sizes and addresses of 00 R5 and R6, the values the quirk parameters of
R7 and R8 can take, and the free values. The values this hardware takes for the parameters stand in Machine/Params.lean. -/

namespace Sys2Proof

/-- MEM_SIZE: the valid addresses are 0 to 4095 (R5, R50). -/
abbrev Config.memSize : Nat := 4096

/-- PROG_BASE: where `LOAD` puts the first byte of an image, and PC after reset (R6). -/
abbrev Config.progBase : Nat := 0x200

/-- PROG_MAX: the longest image `LOAD` accepts (R6). -/
abbrev Config.progMax : Nat := 3584

/-- GLYPH_BYTES (R6, R52). -/
abbrev Config.glyphBytes : Nat := 5

/-- The size of the font table, which starts at FONT_BASE = 0 (R6, R52). -/
abbrev Config.fontBytes : Nat := 80

/-- FONT (R9): the 80 bytes of the font table, glyph 0 first and each glyph's top row first (20 R52). It is a configuration argument: what
depends on it, `POWER_ON` and `RESET`, takes it as one. -/
abbrev Font := Vector Byte Config.fontBytes

/-- SHIFT_SRC (R7): the register 8xy6 and 8xyE shift. -/
inductive ShiftSrc where
  /-- Shift Vx and ignore Vy: this hardware. -/
  | vx
  /-- Shift the value of Vy into Vx: "the earliest hardware revision", not this hardware (R106, R108 variants). -/
  | vy
deriving DecidableEq, Repr

/-- DRAW_ROWS (R8, R116): how many rows Dxyn draws. -/
inductive DrawRows where
  /-- Rows 0 to n: this hardware. -/
  | inclusive
  /-- Rows 0 to n - 1; not this hardware. -/
  | strict
  /-- As `strict`, but sixteen rows for n = 0; not this hardware. -/
  | ext16
deriving DecidableEq, Repr

/-- RND (R10, R113): the k-th byte the random input supplies. A FREE VALUE: the spec gives no law for it, so it has no body,
and what is proved holds for every sequence of bytes (DESIGN CHOICE, safe: log entry 5). -/
opaque Config.rnd : Nat → Byte

/-- What VF holds after a shift with SHIFT_SRC = VY and x = 0xF, from the old values of VF and Vy. A FREE VALUE: R106 and R108 do
not define that case. This hardware takes SHIFT_SRC = VX and never meets it (DESIGN CHOICE, safe: log entry 4). -/
opaque Config.shiftVyIntoVF : Byte → Byte → Byte

end Sys2Proof
end

