-- ==== Sys2Proof/Syntax.lean ====
section
/-! DEFINITION. The instructions: one constructor per row of spec/opcode_table.json, in the order of 30 R76. The operand
types admit exactly the values the encoding fields can hold (R72), so no ill-formed instruction can be written. -/

namespace Sys2Proof

inductive Instr where
  /-- `0000` NOP (R90). -/
  | nop
  /-- `00E0` CLS (R91). -/
  | cls
  /-- `00EE` RET (R92). -/
  | ret
  /-- `1nnn` JP nnn (R93). -/
  | jp (nnn : Addr12)
  /-- `2nnn` CALL nnn (R94). -/
  | call (nnn : Addr12)
  /-- `3xkk` SE Vx, kk (R95). -/
  | seByte (x : RegIdx) (kk : Byte)
  /-- `4xkk` SNE Vx, kk (R96). -/
  | sneByte (x : RegIdx) (kk : Byte)
  /-- `5xy0` SE Vx, Vy (R97). -/
  | seReg (x y : RegIdx)
  /-- `6xkk` LD Vx, kk (R98). -/
  | ldByte (x : RegIdx) (kk : Byte)
  /-- `7xkk` ADD Vx, kk (R99). -/
  | addByte (x : RegIdx) (kk : Byte)
  /-- `8xy0` LD Vx, Vy (R100). -/
  | ldReg (x y : RegIdx)
  /-- `8xy1` OR Vx, Vy (R101). -/
  | orReg (x y : RegIdx)
  /-- `8xy2` AND Vx, Vy (R102). -/
  | andReg (x y : RegIdx)
  /-- `8xy3` XOR Vx, Vy (R103). -/
  | xorReg (x y : RegIdx)
  /-- `8xy4` ADD Vx, Vy (R104). -/
  | addReg (x y : RegIdx)
  /-- `8xy5` SUB Vx, Vy (R105). -/
  | subReg (x y : RegIdx)
  /-- `8xy6` SHR Vx (R106). The `y` field is in the word and this hardware ignores it (R74); the constructor keeps it, so
  that no bit of a word is lost and a fault record can always give the word back (DESIGN CHOICE, safe: log entry 9). -/
  | shr (x y : RegIdx)
  /-- `8xy7` SUBN Vx, Vy (R107). -/
  | subnReg (x y : RegIdx)
  /-- `8xyE` SHL Vx (R108). The `y` field as in `shr`. -/
  | shl (x y : RegIdx)
  /-- `9xy0` SNE Vx, Vy (R110). -/
  | sneReg (x y : RegIdx)
  /-- `Annn` LD I, nnn (R111). -/
  | ldI (nnn : Addr12)
  /-- `Bnnn` JP V0, nnn (R112). -/
  | jpV0 (nnn : Addr12)
  /-- `Cxkk` RND Vx, kk (R113). -/
  | rnd (x : RegIdx) (kk : Byte)
  /-- `Dxyn` DRW Vx, Vy, n (R114): `n` is the index of the sprite's last row. -/
  | drw (x y : RegIdx) (n : Fin 16)
  /-- `Ex9E` SKP Vx (R117). -/
  | skp (x : RegIdx)
  /-- `ExA1` SKNP Vx (R118). -/
  | sknp (x : RegIdx)
  /-- `Fx07` LD Vx, DT (R119). -/
  | ldVxDt (x : RegIdx)
  /-- `Fx0A` LD Vx, K (R120). -/
  | ldVxKey (x : RegIdx)
  /-- `Fx15` LD DT, Vx (R121). -/
  | ldDtVx (x : RegIdx)
  /-- `Fx18` LD ST, Vx (R122). -/
  | ldStVx (x : RegIdx)
  /-- `Fx1E` ADD I, Vx (R123). -/
  | addI (x : RegIdx)
  /-- `Fx29` LD F, Vx (R124). -/
  | ldFont (x : RegIdx)
  /-- `Fx33` LD B, Vx (R125). -/
  | ldBcd (x : RegIdx)
  /-- `Fx55` LD [I], Vx (R126): `x` is the index of the last register stored. -/
  | storeRegs (x : RegIdx)
  /-- `Fx65` LD Vx, [I] (R127): `x` is the index of the last register loaded. -/
  | loadRegs (x : RegIdx)
deriving DecidableEq, Repr

end Sys2Proof
end

