-- ==== Sys2Proof/WellFormed.lean ====
section
/-! DEFINITION. The opcode map of 30 R76 and the checks: which operand values fit their fields (R72), which words are
legal (R76, R77), which program images `LOAD` accepts (70 R163). -/

namespace Sys2Proof

/-- The six formats (R71). -/
inductive Format where
  | fixed | nnn | xkk | xy | xyn | x
deriving DecidableEq, Repr

/-- One row of the opcode map: a word selects it when `(op AND mask) = match` (R76). -/
structure OpcodeRow where
  mnemonic : String
  mask : Word
  pattern : Word
  format : Format
deriving DecidableEq, Repr

def OpcodeRow.selects (r : OpcodeRow) (op : Word) : Bool := op &&& r.mask == r.pattern

/-- The row of each instruction (R76); the mnemonic is that of spec/opcode_table.json. -/
def Instr.row : Instr → OpcodeRow
  | .nop => ⟨"NOP", 0xFFFF, 0x0000, .fixed⟩
  | .cls => ⟨"CLS", 0xFFFF, 0x00E0, .fixed⟩
  | .ret => ⟨"RET", 0xFFFF, 0x00EE, .fixed⟩
  | .jp _ => ⟨"JP_nnn", 0xF000, 0x1000, .nnn⟩
  | .call _ => ⟨"CALL_nnn", 0xF000, 0x2000, .nnn⟩
  | .seByte _ _ => ⟨"SE_Vx__kk", 0xF000, 0x3000, .xkk⟩
  | .sneByte _ _ => ⟨"SNE_Vx__kk", 0xF000, 0x4000, .xkk⟩
  | .seReg _ _ => ⟨"SE_Vx__Vy", 0xF00F, 0x5000, .xy⟩
  | .ldByte _ _ => ⟨"LD_Vx__kk", 0xF000, 0x6000, .xkk⟩
  | .addByte _ _ => ⟨"ADD_Vx__kk", 0xF000, 0x7000, .xkk⟩
  | .ldReg _ _ => ⟨"LD_Vx__Vy", 0xF00F, 0x8000, .xy⟩
  | .orReg _ _ => ⟨"OR_Vx__Vy", 0xF00F, 0x8001, .xy⟩
  | .andReg _ _ => ⟨"AND_Vx__Vy", 0xF00F, 0x8002, .xy⟩
  | .xorReg _ _ => ⟨"XOR_Vx__Vy", 0xF00F, 0x8003, .xy⟩
  | .addReg _ _ => ⟨"ADD_Vx__Vy", 0xF00F, 0x8004, .xy⟩
  | .subReg _ _ => ⟨"SUB_Vx__Vy", 0xF00F, 0x8005, .xy⟩
  | .shr _ _ => ⟨"SHR_Vx", 0xF00F, 0x8006, .xy⟩
  | .subnReg _ _ => ⟨"SUBN_Vx__Vy", 0xF00F, 0x8007, .xy⟩
  | .shl _ _ => ⟨"SHL_Vx", 0xF00F, 0x800E, .xy⟩
  | .sneReg _ _ => ⟨"SNE_Vx__Vy", 0xF00F, 0x9000, .xy⟩
  | .ldI _ => ⟨"LD_I__nnn", 0xF000, 0xA000, .nnn⟩
  | .jpV0 _ => ⟨"JP_V0__nnn", 0xF000, 0xB000, .nnn⟩
  | .rnd _ _ => ⟨"RND_Vx__kk", 0xF000, 0xC000, .xkk⟩
  | .drw _ _ _ => ⟨"DRW_Vx__Vy__n", 0xF000, 0xD000, .xyn⟩
  | .skp _ => ⟨"SKP_Vx", 0xF0FF, 0xE09E, .x⟩
  | .sknp _ => ⟨"SKNP_Vx", 0xF0FF, 0xE0A1, .x⟩
  | .ldVxDt _ => ⟨"LD_Vx__DT", 0xF0FF, 0xF007, .x⟩
  | .ldVxKey _ => ⟨"LD_Vx__K", 0xF0FF, 0xF00A, .x⟩
  | .ldDtVx _ => ⟨"LD_DT__Vx", 0xF0FF, 0xF015, .x⟩
  | .ldStVx _ => ⟨"LD_ST__Vx", 0xF0FF, 0xF018, .x⟩
  | .addI _ => ⟨"ADD_I__Vx", 0xF0FF, 0xF01E, .x⟩
  | .ldFont _ => ⟨"LD_F__Vx", 0xF0FF, 0xF029, .x⟩
  | .ldBcd _ => ⟨"LD_B__Vx", 0xF0FF, 0xF033, .x⟩
  | .storeRegs _ => ⟨"LD__I___Vx", 0xF0FF, 0xF055, .x⟩
  | .loadRegs _ => ⟨"LD_Vx___I", 0xF0FF, 0xF065, .x⟩

/-- One instruction per row of the map, in the map's order (operands zero). -/
def Instr.samples : List Instr :=
  [.nop, .cls, .ret, .jp 0, .call 0, .seByte 0 0, .sneByte 0 0, .seReg 0 0, .ldByte 0 0, .addByte 0 0, .ldReg 0 0,
   .orReg 0 0, .andReg 0 0, .xorReg 0 0, .addReg 0 0, .subReg 0 0, .shr 0 0, .subnReg 0 0, .shl 0 0, .sneReg 0 0] ++
  [.ldI 0, .jpV0 0, .rnd 0 0, .drw 0 0 0, .skp 0, .sknp 0, .ldVxDt 0, .ldVxKey 0, .ldDtVx 0, .ldStVx 0, .addI 0,
   .ldFont 0, .ldBcd 0, .storeRegs 0, .loadRegs 0]

/-- The opcode map: 35 rows (R76). -/
def opcodeMap : List OpcodeRow := Instr.samples.map Instr.row

/-- A word is legal when it matches a row of the map; every other word is illegal (R77). -/
def legalWord (op : Word) : Bool := opcodeMap.any (·.selects op)

/-- A value fits an encoding field of the given width (R72). -/
def fieldFits (width value : Nat) : Bool := value < 2 ^ width

/-- The encoding fields of an instruction: width and value (R71, R72). -/
def Instr.fields : Instr → List (Nat × Nat)
  | .nop | .cls | .ret => []
  | .jp nnn | .call nnn | .ldI nnn | .jpV0 nnn => [(12, nnn.toNat)]
  | .seByte x kk | .sneByte x kk | .ldByte x kk | .addByte x kk | .rnd x kk => [(4, x.val), (8, kk.toNat)]
  | .seReg x y | .ldReg x y | .orReg x y | .andReg x y | .xorReg x y | .addReg x y | .subReg x y | .shr x y | .subnReg x y
  | .shl x y | .sneReg x y => [(4, x.val), (4, y.val)]
  | .drw x y n => [(4, x.val), (4, y.val), (4, n.val)]
  | .skp x | .sknp x | .ldVxDt x | .ldVxKey x | .ldDtVx x | .ldStVx x | .addI x | .ldFont x | .ldBcd x | .storeRegs x
  | .loadRegs x => [(4, x.val)]

/-- Every operand fits its field (R72). The operand types already say so: Laws/WellFormed.lean proves that every `Instr` meets it. -/
def Instr.wellFormed (i : Instr) : Bool := i.fields.all fun f => fieldFits f.1 f.2

/-- A program image fits memory from PROG_BASE up (70 R163). -/
def imageFits (data : List Byte) : Bool := Config.progBase + data.length ≤ Config.memSize

end Sys2Proof
end

