-- ==== Sys2Proof/Decode.lean ====
section
/-! DEFINITION. Decoding and encoding of the 16-bit instruction word (30 R70 to R77), both from the spec's own tables. -/

namespace Sys2Proof

/-- A 4-bit field of a word, as a number 0 to 15. -/
def nibble (op : Word) (lo : Nat) : Fin 16 := (op.extractLsb' lo 4).toFin

/-- `d1 = op[15:12]`, which selects the family (00 R13). -/
def fieldD1 (op : Word) : Fin 16 := nibble op 12

/-- `x = d2 = op[11:8]` (R13, R72). -/
def fieldX (op : Word) : RegIdx := nibble op 8

/-- `y = d3 = op[7:4]` (R13, R72). -/
def fieldY (op : Word) : RegIdx := nibble op 4

/-- `n = d4 = op[3:0]` (R13, R72). -/
def fieldN (op : Word) : Fin 16 := nibble op 0

/-- `kk = op[7:0]` (R13, R72). -/
def fieldKK (op : Word) : Byte := op.extractLsb' 0 8

/-- `nnn = op[11:0]` (R13, R72). -/
def fieldNNN (op : Word) : Addr12 := op.extractLsb' 0 12

/-- The words with d1 = 0 (R73): all 16 bits must match. -/
def decodeFixed (op : Word) : Option Instr :=
  if op = 0x0000 then some .nop
  else if op = 0x00E0 then some .cls
  else if op = 0x00EE then some .ret
  else none

/-- The words with d1 = 8 (R73): d4 selects. -/
def decodeAlu (op : Word) : Option Instr :=
  match (fieldN op).val with
  | 0x0 => some (.ldReg (fieldX op) (fieldY op))
  | 0x1 => some (.orReg (fieldX op) (fieldY op))
  | 0x2 => some (.andReg (fieldX op) (fieldY op))
  | 0x3 => some (.xorReg (fieldX op) (fieldY op))
  | 0x4 => some (.addReg (fieldX op) (fieldY op))
  | 0x5 => some (.subReg (fieldX op) (fieldY op))
  | 0x6 => some (.shr (fieldX op) (fieldY op))
  | 0x7 => some (.subnReg (fieldX op) (fieldY op))
  | 0xE => some (.shl (fieldX op) (fieldY op))
  | _ => none

/-- The words with d1 = E (R73, R75): the whole low byte selects. -/
def decodeKey (op : Word) : Option Instr :=
  if fieldKK op = 0x9E then some (.skp (fieldX op))
  else if fieldKK op = 0xA1 then some (.sknp (fieldX op))
  else none

/-- The words with d1 = F (R73): the whole low byte selects. -/
def decodeMisc (op : Word) : Option Instr :=
  match (fieldKK op).toNat with
  | 0x07 => some (.ldVxDt (fieldX op))
  | 0x0A => some (.ldVxKey (fieldX op))
  | 0x15 => some (.ldDtVx (fieldX op))
  | 0x18 => some (.ldStVx (fieldX op))
  | 0x1E => some (.addI (fieldX op))
  | 0x29 => some (.ldFont (fieldX op))
  | 0x33 => some (.ldBcd (fieldX op))
  | 0x55 => some (.storeRegs (fieldX op))
  | 0x65 => some (.loadRegs (fieldX op))
  | _ => none

/-- The decode procedure (R73): total on 16-bit words; `none` is *unknown*. -/
def decodeWord (op : Word) : Option Instr :=
  match (fieldD1 op).val with
  | 0x0 => decodeFixed op
  | 0x1 => some (.jp (fieldNNN op))
  | 0x2 => some (.call (fieldNNN op))
  | 0x3 => some (.seByte (fieldX op) (fieldKK op))
  | 0x4 => some (.sneByte (fieldX op) (fieldKK op))
  | 0x5 => if fieldN op = 0 then some (.seReg (fieldX op) (fieldY op)) else none
  | 0x6 => some (.ldByte (fieldX op) (fieldKK op))
  | 0x7 => some (.addByte (fieldX op) (fieldKK op))
  | 0x8 => decodeAlu op
  | 0x9 => if fieldN op = 0 then some (.sneReg (fieldX op) (fieldY op)) else none
  | 0xA => some (.ldI (fieldNNN op))
  | 0xB => some (.jpV0 (fieldNNN op))
  | 0xC => some (.rnd (fieldX op) (fieldKK op))
  | 0xD => some (.drw (fieldX op) (fieldY op) (fieldN op))
  | 0xE => decodeKey op
  | 0xF => decodeMisc op
  | _ => none   -- no value of d1 is left

/-- The word of two bytes, the byte at the lower address the high one (20 R54). -/
def wordOfBytes (hi lo : Byte) : Word := hi ++ lo

/-- The two bytes of a word in the order memory holds them (20 R54). -/
def bytesOfWord (op : Word) : List Byte := [op.extractLsb' 8 8, op.extractLsb' 0 8]

/-- What decoding a run of bytes gives. -/
inductive Decoded where
  /-- An instruction and the bytes after it. -/
  | instr (i : Instr) (rest : List Byte)
  /-- The word matches no row of R76 (R77): rejected by name. -/
  | unknownOpcode (op : Word)
  /-- Fewer than two bytes: no word to decode (R70). -/
  | truncated
deriving DecidableEq, Repr

/-- Decoding, total on any bytes; every instruction is two bytes long (R70). -/
def decodeBytes : List Byte → Decoded
  | hi :: lo :: rest =>
    match decodeWord (wordOfBytes hi lo) with
    | some i => .instr i rest
    | none => .unknownOpcode (wordOfBytes hi lo)
  | _ => .truncated

/-- A register number as an encoding field. -/
def nib (x : Fin 16) : BitVec 4 := BitVec.ofFin x

/-- Format NNN (R71). -/
def wordNNN (d1 : BitVec 4) (nnn : Addr12) : Word := d1 ++ nnn

/-- Formats XKK and X (R71). -/
def wordXKK (d1 : BitVec 4) (x : RegIdx) (kk : Byte) : Word := d1 ++ (nib x ++ kk)

/-- Formats XY and XYN (R71). -/
def wordXYN (d1 : BitVec 4) (x y : RegIdx) (n : Fin 16) : Word := d1 ++ (nib x ++ (nib y ++ nib n))

/-- The word of an instruction (R71, R76). -/
def encode : Instr → Word
  | .nop => 0x0000
  | .cls => 0x00E0
  | .ret => 0x00EE
  | .jp nnn => wordNNN 0x1 nnn
  | .call nnn => wordNNN 0x2 nnn
  | .seByte x kk => wordXKK 0x3 x kk
  | .sneByte x kk => wordXKK 0x4 x kk
  | .seReg x y => wordXYN 0x5 x y 0x0
  | .ldByte x kk => wordXKK 0x6 x kk
  | .addByte x kk => wordXKK 0x7 x kk
  | .ldReg x y => wordXYN 0x8 x y 0x0
  | .orReg x y => wordXYN 0x8 x y 0x1
  | .andReg x y => wordXYN 0x8 x y 0x2
  | .xorReg x y => wordXYN 0x8 x y 0x3
  | .addReg x y => wordXYN 0x8 x y 0x4
  | .subReg x y => wordXYN 0x8 x y 0x5
  | .shr x y => wordXYN 0x8 x y 0x6
  | .subnReg x y => wordXYN 0x8 x y 0x7
  | .shl x y => wordXYN 0x8 x y 0xE
  | .sneReg x y => wordXYN 0x9 x y 0x0
  | .ldI nnn => wordNNN 0xA nnn
  | .jpV0 nnn => wordNNN 0xB nnn
  | .rnd x kk => wordXKK 0xC x kk
  | .drw x y n => wordXYN 0xD x y n
  | .skp x => wordXKK 0xE x 0x9E
  | .sknp x => wordXKK 0xE x 0xA1
  | .ldVxDt x => wordXKK 0xF x 0x07
  | .ldVxKey x => wordXKK 0xF x 0x0A
  | .ldDtVx x => wordXKK 0xF x 0x15
  | .ldStVx x => wordXKK 0xF x 0x18
  | .addI x => wordXKK 0xF x 0x1E
  | .ldFont x => wordXKK 0xF x 0x29
  | .ldBcd x => wordXKK 0xF x 0x33
  | .storeRegs x => wordXKK 0xF x 0x55
  | .loadRegs x => wordXKK 0xF x 0x65

/-- The bytes of an instruction as a program image holds them (30 R82, 20 R54). -/
def encodeBytes (i : Instr) : List Byte := bytesOfWord (encode i)

/-- A program image: "a raw byte stream of big-endian 16-bit instructions, no header" (R82). -/
def imageOf (program : List Instr) : List Byte := program.flatMap encodeBytes

/-- The word whose bits `spec/opcode_table.json` numbers as `w`, of which it gives the low `nbits`; the bits above are zero. -/
def tableWord (nbits w : Nat) : Word := BitVec.ofNat 16 (w % 2 ^ nbits)

/-- What the decoder reads from an instruction whose bits the table numbers as `w`: its bytes are laid out as memory holds
them, the high byte at the lower address (20 R54). -/
def decodeTableWord (nbits w : Nat) : Option Instr :=
  match decodeBytes (bytesOfWord (tableWord nbits w)) with
  | .instr i _ => some i
  | _ => none

end Sys2Proof
end

