-- ==== Sys2Proof/Machine/State.lean ====
section
/-! DEFINITION. The state of the core (10 R20), its fault record (60 R130 to R132), and its value after power-on (10 R38). -/

namespace Sys2Proof.Machine

/-- Memory (10 R33, 20 R50): the bytes that differ from what an unlisted address reads as (`Memory.unlisted`), by rising
address. `Memory.wf` is the canonical form. -/
abbrev Memory := List Host.Cell

/-- The framebuffer (R32): 64 by 32 cells, row-major, true means set; cell (xx, yy) stands at index `yy * 64 + xx`. -/
abbrev Framebuffer := Vector Bool 2048

/-- The kind an `OutOfBounds` fault carries (R131). -/
inductive OobKind where
  /-- Instruction fetch with pc > 4094 (R55). -/
  | fetch
  /-- Data read above address 4095: Dxyn, Fx65 (R58). -/
  | dataRead
  /-- Data write above address 4095: Fx33, Fx55 (R58). -/
  | dataWrite
  /-- Keypad index above 15: Ex9E, ExA1 (R117, R118). -/
  | key
  /-- A `LOAD` of more than 3584 bytes (R164); never in the `FAULT` latch. -/
  | load
deriving DecidableEq, Repr

/-- The four fault causes of the core with the info each carries (R130, R132). -/
inductive Cause where
  /-- The fetched word matches no row of R76. -/
  | unknownOpcode
  /-- An access outside what exists: the kind, and the number R132 reports. -/
  | outOfBounds (kind : OobKind) (number : Nat)
  /-- 2nnn with SP = 16. -/
  | stackOverflow
  /-- 00EE with SP = 0. -/
  | stackUnderflow
deriving DecidableEq, Repr

/-- The fault record (R132). The info stands in the cause. -/
structure FaultRecord where
  cause : Cause
  /-- The address of the faulting instruction. -/
  pc : Word
  /-- The word fetched; none for a fetch fault. -/
  opcode : Option Word
deriving DecidableEq, Repr

/-- The complete state of the core (R20), and the model's own position in the random input (log entry 5). -/
structure State where
  /-- `Mem` (R33). -/
  mem : Memory
  /-- `V`: the general registers V0 to VF (R21). -/
  v : Vector Byte 16
  /-- `I`: the index register (R24). -/
  i : Word
  /-- `PC` (R25). -/
  pc : Word
  /-- `Stack`: the return-address slots (R27). -/
  stack : Vector Word 16
  /-- `SP`: the number of occupied slots, 0 to 16 (R28). -/
  sp : Fin 17
  /-- `DT`: the delay timer (R29). -/
  dt : Byte
  /-- `ST`: the sound timer (R30). -/
  st : Byte
  /-- `Key`: the keypad latches, true means pressed (R31). -/
  key : Vector Bool 16
  /-- `FB` (R32). -/
  fb : Framebuffer
  /-- `FAULT`: the fault latch (R34). -/
  fault : Option FaultRecord
  /-- The MODEL's own field, not the spec's: how many bytes have been taken from `RND` (R10, R35(a); DESIGN CHOICE, log entry 5). -/
  rndIndex : Nat
deriving DecidableEq, Repr

/-- Power-on (R38, R160) with the default FONT: memory lists nothing, so it reads as the default table and zeros. `State.powerOn` is
power-on with any FONT. -/
def State.reset : State where
  mem := []
  v := Vector.replicate 16 0
  i := 0x0000
  pc := 0x0200
  stack := Vector.replicate 16 0
  sp := 0
  dt := 0
  st := 0
  key := Vector.replicate 16 false
  fb := Vector.replicate 2048 false
  fault := none
  rndIndex := 0

/-- What would stop the model other than a next state. The type is EMPTY: every fault of this hardware has an entry the spec
describes, the write of the `FAULT` latch (R134), which is a NEXT state, and a faulted core's `STEP` is the inert step of R134, a
next state too. No step raises a `Fault`; safe (log entry 7). -/
inductive Fault : Type
deriving DecidableEq, Repr

/-- Why the model gives an instruction no meaning. -/
inductive Refusal where
  /-- Raised only by an arm of `exec` whose instruction has no meaning yet; no arm is left so. Safe: nothing can be proved of such a step. -/
  | notModelled (mnemonic : String)
deriving DecidableEq, Repr

end Sys2Proof.Machine
end

