-- ==== Sys2Proof/Machine/Framebuffer.lean ====
section
/-! DEFINITION. The framebuffer (10 R32) and the XOR compositor with its collision detector (44 R114). -/

namespace Sys2Proof.Machine

/-- The row-major index of cell (xx, yy) (R14, R32). -/
def cellIndex (xx : Fin 64) (yy : Fin 32) : Fin 2048 := ⟨yy.val * 64 + xx.val, by omega⟩

/-- `FB[xx, yy]` (R14, R32). -/
def Framebuffer.cell (fb : Framebuffer) (xx : Fin 64) (yy : Fin 32) : Bool := fb[(cellIndex xx yy).val]

/-- `FB[xx, yy] <- not FB[xx, yy]` (R114). -/
def Framebuffer.toggle (fb : Framebuffer) (xx : Fin 64) (yy : Fin 32) : Framebuffer :=
  fb.set (cellIndex xx yy).val (!Framebuffer.cell fb xx yy)

/-- Every cell clear (R91, R160). -/
def Framebuffer.clear : Framebuffer := Vector.replicate 2048 false

/-- The column `c` cells right of column `bx`, wrapped (R114(b)). -/
def wrapX (bx : Byte) (c : Nat) : Fin 64 := Fin.ofNat 64 (bx.toNat + c)

/-- The row `r` rows below row `by`, wrapped (R114(b)). -/
def wrapY (bY : Byte) (r : Nat) : Fin 32 := Fin.ofNat 32 (bY.toNat + r)

/-- A draw under way: the framebuffer and whether a set cell has been turned off (`collided` of R114). -/
abbrev Drawing := Framebuffer × Bool

/-- Cell `c` of a sprite row (R114): bit `7 - c` of the row byte, the most significant bit leftmost; a 1 toggles the cell, and
collides when the cell was set; a 0 does nothing. -/
def drawBit (xx : Fin 64) (yy : Fin 32) (bit : Bool) (d : Drawing) : Drawing :=
  if bit then (Framebuffer.toggle d.1 xx yy, d.2 || Framebuffer.cell d.1 xx yy) else d

/-- One sprite row of 8 cells (R114). -/
def drawRow (bx : Byte) (yy : Fin 32) (row : Byte) (d : Drawing) : Drawing :=
  (List.range 8).foldl (fun d c => drawBit (wrapX bx c) yy (row.getLsbD (7 - c)) d) d

/-- The sprite rows from row `r` on (R114). -/
def drawRows (bx bY : Byte) : Nat → List Byte → Drawing → Drawing
  | _, [], d => d
  | r, row :: rows, d => drawRows bx bY (r + 1) rows (drawRow bx (wrapY bY r) row d)

/-- The whole sprite, top row first (R114). -/
def drawSprite (bx bY : Byte) (rows : List Byte) (fb : Framebuffer) : Drawing := drawRows bx bY 0 rows (fb, false)

end Sys2Proof.Machine
end

