-- ==== Sys2Proof/Machine/Params.lean ====
section
/-! DEFINITION. The values this hardware takes for the spec's parameters (00 R7, R8, R9). -/

namespace Sys2Proof.Machine

/-- SHIFT_SRC: this hardware shifts Vx (R7; log entry 2). -/
def Params.shiftSrc : ShiftSrc := .vx

/-- DRAW_ROWS: this hardware draws rows 0 to n (R8; log entry 3). -/
def Params.drawRows : DrawRows := .inclusive

/-- The default table of 20 R53, five bytes a glyph, glyph 0 first. PRESUMED, unsafe: the source fixes the table's place and size and not
its bytes (log entry 1). -/
def Params.fontTable : List Byte :=
  [0xF0, 0x90, 0x90, 0x90, 0xF0,  0x20, 0x60, 0x20, 0x20, 0x70,  0xF0, 0x10, 0xF0, 0x80, 0xF0,  0xF0, 0x10, 0xF0, 0x10, 0xF0] ++
  [0x90, 0x90, 0xF0, 0x10, 0x10,  0xF0, 0x80, 0xF0, 0x10, 0xF0,  0xF0, 0x80, 0xF0, 0x90, 0xF0,  0xF0, 0x10, 0x20, 0x40, 0x40] ++
  [0xF0, 0x90, 0xF0, 0x90, 0xF0,  0xF0, 0x90, 0xF0, 0x10, 0xF0,  0xF0, 0x90, 0xF0, 0x90, 0x90,  0xE0, 0x90, 0xE0, 0x90, 0xE0] ++
  [0xF0, 0x80, 0x80, 0x80, 0xF0,  0xE0, 0x90, 0x90, 0x90, 0xE0,  0xF0, 0x80, 0xF0, 0x80, 0xF0,  0xF0, 0x80, 0xF0, 0x80, 0x80]

/-- The default of the configuration argument FONT (R9). -/
def Params.font : Font := ⟨Params.fontTable.toArray, rfl⟩

end Sys2Proof.Machine
end

