-- ==== Sys2Proof/Machine/Memory.lean ====
section
/-! DEFINITION. Memory (20_memory.md): one byte-addressed space of 4096 bytes, held as the list of bytes that differ from
their reset contents. An address is a natural number and never wraps (R50, R59). -/

namespace Sys2Proof.Machine

/-- What an unlisted address reads as: the reset contents with the default FONT, the table at 0x000 to 0x04F and zero above it (10 R38;
log entries 1, 6). With another FONT, the bytes that differ from the default are listed from power-on (`State.powerOn`). -/
def Memory.unlisted (a : Nat) : Byte := Params.fontTable.getD a 0

/-- The byte at address `a` (R58, R61): reading changes nothing. -/
def Memory.get : Memory → Nat → Byte
  | [], a => Memory.unlisted a
  | (k, b) :: m, a => if k = a then b else Memory.get m a

/-- Unlist an address. -/
def Memory.erase (m : Memory) (a : Nat) : Memory := m.filter fun c => c.1 != a

/-- List a byte in its place by rising address. -/
def Memory.insert : Memory → Nat → Byte → Memory
  | [], a, b => [(a, b)]
  | c :: m, a, b => if c.1 < a then c :: Memory.insert m a b else (a, b) :: c :: m

/-- Write one byte (R58, R61): that byte changes and no other; a byte back at its unlisted value is unlisted. -/
def Memory.set (m : Memory) (a : Nat) (b : Byte) : Memory :=
  if b = Memory.unlisted a then Memory.erase m a else Memory.insert (Memory.erase m a) a b

/-- Write bytes at rising addresses from `a` (R56). -/
def Memory.setBytes : Memory → Nat → List Byte → Memory
  | m, _, [] => m
  | m, a, b :: bs => Memory.setBytes (Memory.set m a b) (a + 1) bs

/-- Read `n` bytes at rising addresses from `a` (R56). -/
def Memory.getBytes (m : Memory) (a : Nat) : Nat → List Byte
  | 0 => []
  | n + 1 => Memory.get m a :: Memory.getBytes m (a + 1) n

/-- The canonical form of a list whose addresses are at least `lo`: strictly rising, inside memory, and no byte listed that has its
unlisted value. -/
def Memory.wfFrom : Nat → Memory → Bool
  | _, [] => true
  | lo, (a, b) :: m =>
    decide (lo ≤ a) && decide (a < Config.memSize) && (b != Memory.unlisted a) && Memory.wfFrom (a + 1) m

/-- The canonical form of memory. -/
def Memory.wf (m : Memory) : Bool := Memory.wfFrom 0 m

end Sys2Proof.Machine
end

