-- ==== Sys2Proof/Machine/Ops.lean ====
section
/-! DEFINITION. The named operations over the state: registers, PC, stack, timers, the random input, and taking a fault. -/

namespace Sys2Proof.Machine

/-- What a step or a meaning answers. -/
abbrev Result := Host.Outcome State Fault Refusal

/-- `V[x]` (00 R14, 10 R21). -/
def State.getV (s : State) (x : RegIdx) : Byte := s.v[x.val]

/-- `V[x] <- b` (R14, R21). -/
def State.setV (s : State) (x : RegIdx) (b : Byte) : State := { s with v := s.v.set x.val b }

/-- `I <- w` (R24). -/
def State.setI (s : State) (w : Word) : State := { s with i := w }

/-- `PC <- w` (R25). -/
def State.setPc (s : State) (w : Word) : State := { s with pc := w }

/-- `DT <- b` (R29). -/
def State.setDt (s : State) (b : Byte) : State := { s with dt := b }

/-- `ST <- b` (R30). -/
def State.setSt (s : State) (b : Byte) : State := { s with st := b }

/-- The framebuffer becomes `fb` (R32). -/
def State.setFb (s : State) (fb : Framebuffer) : State := { s with fb := fb }

/-- Memory becomes `m` (R33). -/
def State.setMem (s : State) (m : Memory) : State := { s with mem := m }

/-- `Key[k] <- pressed` (R31). -/
def State.setKey (s : State) (k : Fin 16) (pressed : Bool) : State := { s with key := s.key.set k.val pressed }

/-- `npc`: the address of the next sequential instruction (R14, R25). -/
def State.npc (s : State) : Word := s.pc + 2

/-- `pc <- npc` (R14). -/
def State.advance (s : State) : State := s.setPc s.npc

/-- `if cond then pc <- trunc_16(npc + 2) else pc <- npc` (41, introduction). -/
def State.skipIf (s : State) (cond : Bool) : State := s.setPc (if cond then s.npc + 2 else s.npc)

/-- Push a return address (10 R28, 40 R94); none when sixteen slots are occupied. -/
def State.push (s : State) (w : Word) : Option State :=
  if h : s.sp.val < 16 then
    some { s with stack := s.stack.set s.sp.val w, sp := ⟨s.sp.val + 1, by omega⟩ }
  else none

/-- Pop a return address (10 R28, 40 R92); none when the stack is empty. The slot keeps its contents (R27). -/
def State.pop (s : State) : Option (Word × State) :=
  if h : s.sp.val = 0 then none
  else some (s.stack[s.sp.val - 1], { s with sp := ⟨s.sp.val - 1, by omega⟩ })

/-- `RndByte()` (R10, R14): the next byte of the random input, and the state after taking it. -/
def State.rndByte (s : State) : Byte × State := (Config.rnd s.rndIndex, { s with rndIndex := s.rndIndex + 1 })

/-- TAKING A FAULT (60 R133, R134): the latch is written and nothing else; PC still holds the address of the faulting
instruction. There is no handler, vector or handler mode. THE RETURN from a fault is `State.resetEvent` alone (R137). -/
def State.takeFault (s : State) (opcode : Option Word) (c : Cause) : State :=
  { s with fault := some { cause := c, pc := s.pc, opcode := opcode } }

/-- `raise` in the Operation of an instruction (R14, R132): the record's opcode is the word fetched, which is the instruction's
own encoding. -/
def State.raise (s : State) (instr : Instr) (c : Cause) : State := s.takeFault (some (encode instr)) c

/-- `POWER_ON` (70 R160) with the configuration argument FONT (R9): its 80 bytes from address 0 up, and every other piece of state as in
`State.reset`, which is the power-on state with the default FONT. -/
def State.powerOn (font : Font) : State := { State.reset with mem := Memory.setBytes State.reset.mem 0 font.toList }

/-- RESET (70 R161): the power-on state with the same FONT, whatever was before; it alone clears the latch (R134). The random input is
not state and goes on (R35(a); log entry 5). -/
def State.resetEvent (font : Font) (s : State) : State := { State.powerOn font with rndIndex := s.rndIndex }

/-- The fetch primitive (20 R55): two bytes, high byte first, at any address (R57); none when `pc + 1` is above 4095. -/
def State.fetch (s : State) : Option Word :=
  if s.pc.toNat + 1 > 4095 then none
  else some (wordOfBytes (Memory.get s.mem s.pc.toNat) (Memory.get s.mem (s.pc.toNat + 1)))

/-- A fetch fault (R55, R132): no word was obtained, and the first address out of range is reported. -/
def State.fetchFault (s : State) : State := s.takeFault none (.outOfBounds .fetch (max s.pc.toNat 4096))

/-- A word that matches no row of R76 (R73, R77, R132). -/
def State.unknownOpcode (s : State) (op : Word) : State := s.takeFault (some op) .unknownOpcode

/-- `s` ready to fetch the word `op`: its two bytes at PC, in memory's order; where `s` could not fetch at all (a set latch, or PC
above 4094), the latch is cleared and PC is put at PROG_BASE (log entry 10). -/
def State.placeWord (s : State) (op : Word) : State :=
  let pc : Word := if s.pc.toNat + 1 > 4095 then 0x0200 else s.pc
  { s with mem := Memory.setBytes s.mem pc.toNat (bytesOfWord op), pc := pc, fault := none }

end Sys2Proof.Machine
end

