-- ==== Sys2Proof/Machine/Operands.lean ====
section
/-! DEFINITION. The operand forms: absolute targets, memory ranges at I, the key index, the shift source, the row count, the
decimal digits and the register block. -/

namespace Sys2Proof.Machine

/-- `zext_16(nnn)` (30 R72). -/
def addrOf (nnn : Addr12) : Word := nnn.setWidth 16

/-- The bounds check of an instruction that touches `count` bytes from `base` (20 R58, R59; 60 R132): when one of them lies above
4095 the fault reports the lowest that does, `max(base, 4096)`. Made before anything is changed (R133). -/
def accessFault (kind : OobKind) (base : Word) (count : Nat) : Option Cause :=
  if 0 < count ∧ base.toNat + count > Config.memSize then some (.outOfBounds kind (max base.toNat 4096)) else none

/-- The keypad latch a register's value names (45 R117): the whole value is the index, and above 15 there is no latch. -/
def keyIndex (b : Byte) : Option (Fin 16) := if h : b.toNat < 16 then some ⟨b.toNat, h⟩ else none

/-- The fault of a key index above 15 (R117, R132). -/
def keyFault (b : Byte) : Cause := .outOfBounds .key b.toNat

/-- The least pressed key (46 R120). -/
def leastKey (key : Vector Bool 16) : Option (Fin 16) := (List.finRange 16).find? fun k => key[k.val]

/-- How many rows Dxyn draws (00 R8, 44 R116). -/
def drawRowCount (mode : DrawRows) (n : Fin 16) : Nat :=
  match mode with
  | .inclusive => n.val + 1
  | .strict => n.val
  | .ext16 => if n.val = 0 then 16 else n.val

/-- The decimal digits of a byte: hundreds, tens, ones (46 R125). -/
def decimalDigits (b : Byte) : List Byte :=
  [BitVec.ofNat 8 (b.toNat / 100), BitVec.ofNat 8 (b.toNat / 10 % 10), BitVec.ofNat 8 (b.toNat % 10)]

/-- V0 to Vx in order (46 R126). -/
def State.regBlock (s : State) (x : RegIdx) : List Byte := s.v.toList.take (x.val + 1)

/-- `for r in 0..x: V[r] <- Mem[base + r]`; the registers above Vx keep their values (46 R127). -/
def State.loadBlock (s : State) (x : RegIdx) (base : Nat) : State :=
  { s with v := Vector.ofFn fun r : Fin 16 => if r ≤ x then Memory.get s.mem (base + r.val) else s.v[r.val] }

/-- `5 * zext_16(Vx)`: the address of a font glyph (46 R124); the whole byte is multiplied. -/
def glyphAddr (b : Byte) : Word := BitVec.ofNat 16 (Config.glyphBytes * b.toNat)

end Sys2Proof.Machine
end

