-- ==== Sys2Proof/Machine/Flags.lean ====
section
/-! DEFINITION. VF, the only flag (10 R22): the value each flag-writing instruction gives it, and the order of its write (R23). -/

namespace Sys2Proof.Machine

/-- A flag value, 0 or 1 (R22). -/
def flagOf (b : Bool) : Byte := if b then 1 else 0

/-- 8xy4: 1 when the true sum exceeds 255 (42 R104). -/
def carryFlag (a b : Byte) : Byte := flagOf (a.toNat + b.toNat > 255)

/-- 8xy5 and 8xy7: 1 when no borrow was needed, that is `minuend >= subtrahend` (R105, R107, R109(d)). -/
def noBorrowFlag (minuend subtrahend : Byte) : Byte := flagOf (minuend.toNat ≥ subtrahend.toNat)

/-- Bit 0, the bit 8xy6 shifts out: `b mod 2` (R106). -/
def lowBitFlag (b : Byte) : Byte := BitVec.ofNat 8 (b.toNat % 2)

/-- Bit 7, the bit 8xyE shifts out: `b div 128` (R108). -/
def topBitFlag (b : Byte) : Byte := BitVec.ofNat 8 (b.toNat / 128)

/-- `V[x] <- result; V[15] <- flag`: the flag is written second and wins when x = 0xF (R23, R104, R105, R107). -/
def State.setResultThenFlag (s : State) (x : RegIdx) (result flag : Byte) : State := (s.setV x result).setV vF flag

/-- One shift of 8xy6 or 8xyE, given how it computes the flag and the result. With SHIFT_SRC = VX the flag is written first and the
shift then reads V[x] again, so that with x = 0xF it shifts the flag (R23, R106, R108). With SHIFT_SRC = VY, not this hardware, the
value of Vy is shifted into Vx; for x = 0xF that variant is undefined and VF gets a free value (log entry 4). -/
def State.shift (src : ShiftSrc) (flag result : Byte → Byte) (x y : RegIdx) (s : State) : State :=
  match src with
  | .vx =>
    let s' := s.setV vF (flag (s.getV x))
    s'.setV x (result (s'.getV x))
  | .vy =>
    if x = vF then s.setV vF (Config.shiftVyIntoVF (s.getV vF) (s.getV y))
    else (s.setV x (result (s.getV y))).setV vF (flag (s.getV y))

end Sys2Proof.Machine
end

