-- ==== Sys2Proof/Machine/Alu.lean ====
section
/-! DEFINITION. Family 8, the register ALU (42_alu_8.md). -/

namespace Sys2Proof.Machine

/-- `8xy0` LD Vx, Vy (R100). -/
def execLdReg (x y : RegIdx) (s : State) : Result := .next (s.setV x (s.getV y)).advance

/-- `8xy1` OR Vx, Vy (R101): no flag. -/
def execOrReg (x y : RegIdx) (s : State) : Result := .next (s.setV x (s.getV x ||| s.getV y)).advance

/-- `8xy2` AND Vx, Vy (R102): no flag. -/
def execAndReg (x y : RegIdx) (s : State) : Result := .next (s.setV x (s.getV x &&& s.getV y)).advance

/-- `8xy3` XOR Vx, Vy (R103): no flag. -/
def execXorReg (x y : RegIdx) (s : State) : Result := .next (s.setV x (s.getV x ^^^ s.getV y)).advance

/-- `8xy4` ADD Vx, Vy (R104): VF is the carry out, written second. -/
def execAddReg (x y : RegIdx) (s : State) : Result :=
  .next (s.setResultThenFlag x (s.getV x + s.getV y) (carryFlag (s.getV x) (s.getV y))).advance

/-- `8xy5` SUB Vx, Vy (R105): VF is 1 when no borrow was needed, written second. -/
def execSubReg (x y : RegIdx) (s : State) : Result :=
  .next (s.setResultThenFlag x (s.getV x - s.getV y) (noBorrowFlag (s.getV x) (s.getV y))).advance

/-- `8xy6` SHR Vx (R106): VF is the bit shifted out, written first; Vy is ignored. -/
def execShr (x y : RegIdx) (s : State) : Result :=
  .next (s.shift Params.shiftSrc lowBitFlag (fun b => b >>> 1) x y).advance

/-- `8xy7` SUBN Vx, Vy (R107): Vx becomes Vy - Vx. -/
def execSubnReg (x y : RegIdx) (s : State) : Result :=
  .next (s.setResultThenFlag x (s.getV y - s.getV x) (noBorrowFlag (s.getV y) (s.getV x))).advance

/-- `8xyE` SHL Vx (R108): VF is the bit shifted out, written first; Vy is ignored. -/
def execShl (x y : RegIdx) (s : State) : Result :=
  .next (s.shift Params.shiftSrc topBitFlag (fun b => b <<< 1) x y).advance

end Sys2Proof.Machine
end

