-- ==== Sys2Proof/Machine/Draw.lean ====
section
/-! DEFINITION. Family D, the sprite draw (44_draw_D.md). -/

namespace Sys2Proof.Machine

/-- Draw the sprite of `count` rows at I with its top-left cell at (Vx, Vy); coordinates and I are read first and VF, the
collision, is written last (R114). -/
def State.drawAt (s : State) (x y : RegIdx) (count : Nat) : State :=
  let d := drawSprite (s.getV x) (s.getV y) (Memory.getBytes s.mem s.i.toNat count) s.fb
  (s.setFb d.1).setV vF (flagOf d.2)

/-- Dxyn for each value of DRAW_ROWS (R114, R116): the bounds check covers exactly the bytes read and comes before any change. -/
def State.draw (mode : DrawRows) (x y : RegIdx) (n : Fin 16) (s : State) : State :=
  match accessFault .dataRead s.i (drawRowCount mode n) with
  | some c => s.raise (.drw x y n) c
  | none => (s.drawAt x y (drawRowCount mode n)).advance

/-- `Dxyn` DRW Vx, Vy, n (R114). -/
def execDrw (x y : RegIdx) (n : Fin 16) (s : State) : Result := .next (s.draw Params.drawRows x y n)

end Sys2Proof.Machine
end

