-- ==== Sys2Proof/Machine/FamilyF.lean ====
section
/-! DEFINITION. Family F: timers, key wait, index arithmetic, font, decimal digits, register block store and load (46_family_F.md). -/

namespace Sys2Proof.Machine

/-- `Fx07` LD Vx, DT (R119). -/
def execLdVxDt (x : RegIdx) (s : State) : Result := .next (s.setV x s.dt).advance

/-- `Fx0A` LD Vx, K (R120): with no key pressed the step changes nothing, PC included, so the next step polls again. -/
def execLdVxKey (x : RegIdx) (s : State) : Result :=
  match leastKey s.key with
  | some k => .next (s.setV x (BitVec.ofNat 8 k.val)).advance
  | none => .next (s.setPc s.pc)

/-- `Fx15` LD DT, Vx (R121). -/
def execLdDtVx (x : RegIdx) (s : State) : Result := .next (s.setDt (s.getV x)).advance

/-- `Fx18` LD ST, Vx (R122). -/
def execLdStVx (x : RegIdx) (s : State) : Result := .next (s.setSt (s.getV x)).advance

/-- `Fx1E` ADD I, Vx (R123): modulo 65536, no flag. -/
def execAddI (x : RegIdx) (s : State) : Result := .next (s.setI (s.i + (s.getV x).setWidth 16)).advance

/-- `Fx29` LD F, Vx (R124). -/
def execLdFont (x : RegIdx) (s : State) : Result := .next (s.setI (glyphAddr (s.getV x))).advance

/-- `Fx33` LD B, Vx (R125): three bytes, all checked before the first is written. -/
def execLdBcd (x : RegIdx) (s : State) : Result :=
  match accessFault .dataWrite s.i 3 with
  | some c => .next (s.raise (.ldBcd x) c)
  | none => .next (s.setMem (Memory.setBytes s.mem s.i.toNat (decimalDigits (s.getV x)))).advance

/-- `Fx55` LD [I], Vx (R126): V0 to Vx inclusive; I is not changed. -/
def execStoreRegs (x : RegIdx) (s : State) : Result :=
  match accessFault .dataWrite s.i (x.val + 1) with
  | some c => .next (s.raise (.storeRegs x) c)
  | none => .next (s.setMem (Memory.setBytes s.mem s.i.toNat (s.regBlock x))).advance

/-- `Fx65` LD Vx, [I] (R127): V0 to Vx inclusive; I is not changed. -/
def execLoadRegs (x : RegIdx) (s : State) : Result :=
  match accessFault .dataRead s.i (x.val + 1) with
  | some c => .next (s.raise (.loadRegs x) c)
  | none => .next (s.loadBlock x s.i.toNat).advance

end Sys2Proof.Machine
end

