-- ==== Sys2Proof/Machine/Flow.lean ====
section
/-! DEFINITION. Families 0, 1 and 2 (40_flow_0_1_2.md). -/

namespace Sys2Proof.Machine

/-- `0000` NOP (R90). -/
def execNop (s : State) : Result := .next s.advance

/-- `00E0` CLS (R91). -/
def execCls (s : State) : Result := .next (s.setFb Framebuffer.clear).advance

/-- `00EE` RET (R92): StackUnderflow when the stack is empty. -/
def execRet (s : State) : Result :=
  match s.pop with
  | none => .next (s.raise .ret .stackUnderflow)
  | some (target, s') => .next (s'.setPc target)

/-- `1nnn` JP nnn (R93). -/
def execJp (nnn : Addr12) (s : State) : Result := .next (s.setPc (addrOf nnn))

/-- `2nnn` CALL nnn (R94): StackOverflow when sixteen slots are occupied. -/
def execCall (nnn : Addr12) (s : State) : Result :=
  match s.push s.npc with
  | none => .next (s.raise (.call nnn) .stackOverflow)
  | some s' => .next (s'.setPc (addrOf nnn))

end Sys2Proof.Machine
end

