-- ==== Sys2Proof/Machine/Keys.lean ====
section
/-! DEFINITION. Family E, skip on a key's state (45_keys_E.md). -/

namespace Sys2Proof.Machine

/-- Skip when the latch Vx names holds `want`; OutOfBounds(key) when the value of Vx is above 15 (R117, R118). -/
def State.skipOnKey (s : State) (instr : Instr) (x : RegIdx) (want : Bool) : State :=
  match keyIndex (s.getV x) with
  | none => s.raise instr (keyFault (s.getV x))
  | some k => s.skipIf (s.key[k.val] == want)

/-- `Ex9E` SKP Vx (R117). -/
def execSkp (x : RegIdx) (s : State) : Result := .next (s.skipOnKey (.skp x) x true)

/-- `ExA1` SKNP Vx (R118). -/
def execSknp (x : RegIdx) (s : State) : Result := .next (s.skipOnKey (.sknp x) x false)

end Sys2Proof.Machine
end

