-- ==== Sys2Proof/Machine/Misc.lean ====
section
/-! DEFINITION. Families 9, A, B and C (43_misc_9_to_C.md). -/

namespace Sys2Proof.Machine

/-- `9xy0` SNE Vx, Vy (R110). -/
def execSneReg (x y : RegIdx) (s : State) : Result := .next (s.skipIf (s.getV x != s.getV y))

/-- `Annn` LD I, nnn (R111). -/
def execLdI (nnn : Addr12) (s : State) : Result := .next (s.setI (addrOf nnn)).advance

/-- `Bnnn` JP V0, nnn (R112): the sum is not reduced to 12 bits. -/
def execJpV0 (nnn : Addr12) (s : State) : Result := .next (s.setPc (addrOf nnn + (s.getV 0).setWidth 16))

/-- `Cxkk` RND Vx, kk (R113): one byte is taken from the random input on every execution. -/
def execRnd (x : RegIdx) (kk : Byte) (s : State) : Result :=
  .next (s.rndByte.2.setV x (s.rndByte.1 &&& kk)).advance

end Sys2Proof.Machine
end

