-- ==== Sys2Proof/Machine/SkipImm.lean ====
section
/-! DEFINITION. Families 3 to 7 (41_skip_imm_3_to_7.md). -/

namespace Sys2Proof.Machine

/-- `3xkk` SE Vx, kk (R95). -/
def execSeByte (x : RegIdx) (kk : Byte) (s : State) : Result := .next (s.skipIf (s.getV x == kk))

/-- `4xkk` SNE Vx, kk (R96). -/
def execSneByte (x : RegIdx) (kk : Byte) (s : State) : Result := .next (s.skipIf (s.getV x != kk))

/-- `5xy0` SE Vx, Vy (R97). -/
def execSeReg (x y : RegIdx) (s : State) : Result := .next (s.skipIf (s.getV x == s.getV y))

/-- `6xkk` LD Vx, kk (R98). -/
def execLdByte (x : RegIdx) (kk : Byte) (s : State) : Result := .next (s.setV x kk).advance

/-- `7xkk` ADD Vx, kk (R99): no flag. -/
def execAddByte (x : RegIdx) (kk : Byte) (s : State) : Result := .next (s.setV x (s.getV x + kk)).advance

end Sys2Proof.Machine
end

