-- ==== Sys2Proof/Machine/Step.lean ====
section
/-! DEFINITION. The `STEP` event (60 R148): one instruction, start to finish. -/

namespace Sys2Proof.Machine

/-- `STEP` (R148), its checks in the order of R135: the latch, the fetch bounds, the decode, then the instruction's own. While the
latch is set a step does nothing (R134); this is a next state, not a stop (log entry 7). -/
def step (s : State) : Host.Outcome State Fault Refusal :=
  match s.fault with
  | some _ => .next s
  | none =>
    match s.fetch with
    | none => .next s.fetchFault
    | some op =>
      match decodeWord op with
      | none => .next (s.unknownOpcode op)
      | some i => exec i s

/-- `s` with the word that the table numbers `w` where the next step fetches (log entry 10). -/
def State.withFetchWord (s : State) (nbits w : Nat) : State := s.placeWord (tableWord nbits w)

end Sys2Proof.Machine
end

