-- ==== Sys2Proof/Machine/Events.lean ====
section
/-! DEFINITION. The host interface (60 R141 to R150, 70 R160 to R164): the events and what the host can observe. -/

namespace Sys2Proof.Machine

/-- The events the host may send between steps, in any order and number (R147). `POWER_ON` is no constructor: it happens once, as the
first event, and is `State.powerOn` (R160). A key index is 0 to 15 (R144, 90 C6). -/
inductive Event where
  | reset
  | load (data : List Byte)
  | step
  | timerTick
  | key (k : Fin 16) (pressed : Bool)
deriving DecidableEq, Repr

/-- What an event reports to the host. -/
inductive Reply where
  /-- Nothing to report. -/
  | done
  /-- A `STEP` that faulted, or that met a set latch: the record, "the same record again" (R134). -/
  | faulted (r : FaultRecord)
  /-- `OutOfBounds(load)` with the end address that was asked for (R132, R164). -/
  | loadRefused (kind : OobKind) (endAddr : Nat)
deriving DecidableEq, Repr

/-- One timer's countdown, floored at 0 (R29, R30, R141). -/
def countDown (b : Byte) : Byte := if b.toNat > 0 then b - 1 else b

/-- `TIMER_TICK` (R141): both timers, each by its own value. -/
def State.timerTick (s : State) : State := { s with dt := countDown s.dt, st := countDown s.st }

/-- `LOAD(data)` (R163, R164): the bytes verbatim from 0x200 up, or refused whole. The latch is not touched. -/
def State.load (s : State) (data : List Byte) : State × Reply :=
  if imageFits data then (s.setMem (Memory.setBytes s.mem Config.progBase data), .done)
  else (s, .loadRefused .load (Config.progBase + data.length))

/-- `STEP` as an event. A step always answers a next state (Laws/Step.lean), so the last case is never met. -/
def State.stepEvent (s : State) : State × Reply :=
  match step s with
  | .next t =>
    match t.fault with
    | some r => (t, .faulted r)
    | none => (t, .done)
  | .fault r => nomatch r
  | .refused _ => (s, .done)

/-- What one event does (R147) on a core with the given FONT, which `RESET` reloads (R9, R161) and no other event reads. While the core is faulted `STEP` is inert and the others act as usual (R150). -/
def State.event (font : Font) (s : State) : Event → State × Reply
  | .reset => (s.resetEvent font, .done)
  | .load data => s.load data
  | .step => s.stepEvent
  | .timerTick => (s.timerTick, .done)
  | .key k pressed => (s.setKey k pressed, .done)

/-- A run: the events in the total order in which they come (R147, 20 R64); FONT is constant for the life of the core (10 R35(c)). -/
def State.runEvents (font : Font) (s : State) (events : List Event) : State :=
  events.foldl (fun s e => (s.event font e).1) s

/-- The machine behind the host's interface with any FONT: `STEP` does not depend on it, only the state it starts from does. -/
def coreWithFont (font : Font) : Host.Core := { core with reset := State.powerOn font }

/-- `get_display` (R145): 2048 Booleans, row-major; element `i` is `FB[i mod 64, i div 64]`. -/
def State.display (s : State) : Vector Bool 2048 := s.fb

/-- The sound output (R143). -/
def State.soundOn (s : State) : Bool := s.st != 0

/-- The cause codes (R131); 0 when there is no fault. -/
def causeCode : Option FaultRecord → Nat
  | none => 0
  | some r =>
    match r.cause with
    | .unknownOpcode => 1
    | .outOfBounds _ _ => 2
    | .stackOverflow => 3
    | .stackUnderflow => 4

/-- The kinds of `OutOfBounds` (R131). -/
def OobKind.code : OobKind → Nat
  | .fetch => 0
  | .dataRead => 1
  | .dataWrite => 2
  | .key => 3
  | .load => 4

end Sys2Proof.Machine
end

