-- ==== Sys2Proof/Safety.lean ====
section
/-! DEFINITION. What counts as a sound state, a finished run and a host that follows the lifecycle, in the terms claims use. -/

namespace Sys2Proof.Machine

/-- The core is faulted (R134). -/
def State.faulted (s : State) : Bool := s.fault.isSome

/-- The invariant of the machine: memory has its canonical form, PC holds at most 0x10FE and every occupied stack slot at most 0x1000
(10 R26), and a fault record's pc agrees with PC (60 R132, R133). -/
structure State.Inv (s : State) : Prop where
  mem_wf : Memory.wf s.mem = true
  pc_le : s.pc.toNat ≤ 0x10FE
  slots_le : ∀ k : Fin 16, k.val < s.sp.val → (s.stack[k.val]).toNat ≤ 0x1000
  fault_pc : ∀ r, s.fault = some r → r.pc = s.pc

/-- END_OF_RUN (70 R174), the value the spec recommends for this open parameter: PC points at a `1nnn` whose target is its own
address, `Mem16(pc) = 0x1000 | pc` (DESIGN CHOICE, log entry 12). -/
def State.atSelfJump (s : State) : Bool := !s.faulted && s.fetch == some (0x1000 ||| s.pc)

/-- A run is safe while no step has faulted (R174: a fault is never successful completion). -/
def State.safe (s : State) : Bool := !s.faulted

/-- The lifecycle of 70 R166, as a grammar of the events after `POWER_ON`: `(RESET)* LOAD (STEP | TIMER_TICK | KEY)*`, and the same
again after any later `RESET`. `needsLoad` says whether an image is still to come. It is an assumption about the host, which the core
does not enforce. The grammar is of a whole life, with its `LOAD`; that a list of events which stops earlier (empty, or `RESET`s alone)
follows it too, as an unfinished life, is the model's choice, and so is that several `RESET`s in a row may come later on (DESIGN CHOICE,
safe: log entry 15). -/
def followsLifecycle : (needsLoad : Bool) → List Event → Bool
  | _, [] => true
  | _, .reset :: es => followsLifecycle true es
  | needsLoad, .load _ :: es => needsLoad && followsLifecycle false es
  | needsLoad, .step :: es => !needsLoad && followsLifecycle false es
  | needsLoad, .timerTick :: es => !needsLoad && followsLifecycle false es
  | needsLoad, .key _ _ :: es => !needsLoad && followsLifecycle false es

/-- Fairness of an endless stream of host events, as 70 R175 words the premises a claim of progress must state. The core guarantees none
of them. (a) Some key goes down and at least one `STEP` comes before it is released (or the core is reset). -/
def keyHeldForAStep (run : Nat → Event) : Prop :=
  ∃ k a b, a < b ∧ run a = .key k true ∧ run b = .step ∧ ∀ j, a < j → j < b → run j ≠ .key k false ∧ run j ≠ .reset

/-- (b) "`TIMER_TICK` occurs infinitely often" (R175). -/
def ticksForever (run : Nat → Event) : Prop := ∀ n, ∃ m, n ≤ m ∧ run m = .timerTick

/-- (c) The host sends enough `STEP` events, whatever number that is (R175). -/
def stepsForever (run : Nat → Event) : Prop := ∀ n, ∃ m, n ≤ m ∧ run m = .step

/-- The pieces of state a frame speaks of; PC is left out, since every instruction may change it. -/
inductive Part where
  | reg (r : RegIdx)
  | i
  | slots
  | sp
  | dt
  | st
  | keys
  | cells
  | latch
  | rnd
  | byte (a : Nat)
deriving DecidableEq, Repr

/-- `t` agrees with `s` on every piece of state but those listed, and PC. -/
structure Unchanged (changed : List Part) (s t : State) : Prop where
  reg : ∀ r, Part.reg r ∉ changed → t.getV r = s.getV r
  i : Part.i ∉ changed → t.i = s.i
  slots : Part.slots ∉ changed → t.stack = s.stack
  sp : Part.sp ∉ changed → t.sp = s.sp
  dt : Part.dt ∉ changed → t.dt = s.dt
  st : Part.st ∉ changed → t.st = s.st
  keys : Part.keys ∉ changed → t.key = s.key
  cells : Part.cells ∉ changed → t.fb = s.fb
  latch : Part.latch ∉ changed → t.fault = s.fault
  rnd : Part.rnd ∉ changed → t.rndIndex = s.rndIndex
  byte : ∀ a, Part.byte a ∉ changed → Memory.get t.mem a = Memory.get s.mem a

/-- The `count` bytes of memory from `a` up, as parts. -/
def bytesFrom (a count : Nat) : List Part := (List.range count).map fun r => .byte (a + r)

/-- The registers an instruction may write: its `x` destination, VF as a flag, or the block V0 to Vx (10 R21, R22, R37). -/
def destsOf : Instr → List RegIdx
  | .ldByte x _ | .addByte x _ | .ldReg x _ | .orReg x _ | .andReg x _ | .xorReg x _ | .rnd x _ | .ldVxDt x | .ldVxKey x => [x]
  | .addReg x _ | .subReg x _ | .subnReg x _ | .shr x _ | .shl x _ => [x, vF]
  | .drw _ _ _ => [vF]
  | .loadRegs x => (List.finRange 16).filter fun r => r ≤ x
  | .nop | .cls | .ret | .jp _ | .call _ | .seByte _ _ | .sneByte _ _ | .seReg _ _ | .sneReg _ _ | .ldI _ | .jpV0 _ | .skp _
  | .sknp _ | .ldDtVx _ | .ldStVx _ | .addI _ | .ldFont _ | .ldBcd _ | .storeRegs _ => []

/-- The one execute-time check of each instruction, as 60 R136 tabulates it: the cause it raises in this state, if any. -/
def faultCondition (s : State) : Instr → Option Cause
  | .call _ => if s.sp.val = 16 then some .stackOverflow else none
  | .ret => if s.sp.val = 0 then some .stackUnderflow else none
  | .drw _ _ n => if s.i.toNat + n.val > 4095 then some (.outOfBounds .dataRead (max s.i.toNat 4096)) else none
  | .loadRegs x => if s.i.toNat + x.val > 4095 then some (.outOfBounds .dataRead (max s.i.toNat 4096)) else none
  | .ldBcd _ => if s.i.toNat + 2 > 4095 then some (.outOfBounds .dataWrite (max s.i.toNat 4096)) else none
  | .storeRegs x => if s.i.toNat + x.val > 4095 then some (.outOfBounds .dataWrite (max s.i.toNat 4096)) else none
  | .skp x | .sknp x =>
    if (s.getV x).toNat > 15 then some (.outOfBounds .key (s.getV x).toNat) else none
  | .nop | .cls | .jp _ | .seByte _ _ | .sneByte _ _ | .seReg _ _ | .ldByte _ _ | .addByte _ _ | .ldReg _ _ | .orReg _ _
  | .andReg _ _ | .xorReg _ _ | .addReg _ _ | .subReg _ _ | .shr _ _ | .subnReg _ _ | .shl _ _ | .sneReg _ _ | .ldI _
  | .jpV0 _ | .rnd _ _ | .ldVxDt _ | .ldVxKey _ | .ldDtVx _ | .ldStVx _ | .addI _ | .ldFont _ => none

/-- The illegal words, class by class, as 30 R77 tabulates them. -/
def illegalClass (op : Word) : Prop :=
  let d1 := op.toNat / 4096
  let low := op.toNat % 256
  let n := op.toNat % 16
  (d1 = 0x0 ∧ op.toNat % 4096 ∉ [0x000, 0x0E0, 0x0EE]) ∨
  (d1 = 0x5 ∧ n ≠ 0) ∨
  (d1 = 0x8 ∧ n ∈ [0x8, 0x9, 0xA, 0xB, 0xC, 0xD, 0xF]) ∨
  (d1 = 0x9 ∧ n ≠ 0) ∨
  (d1 = 0xE ∧ low ∉ [0x9E, 0xA1]) ∨
  (d1 = 0xF ∧ low ∉ [0x07, 0x0A, 0x15, 0x18, 0x1E, 0x29, 0x33, 0x55, 0x65])

/-- A 1 bit of the sprite of `rows` rows at I, drawn at (Vx, Vy), falls on the cell (xx, yy): bit `7 - c` of row `r`, at column
`Vx + c` modulo 64 and row `Vy + r` modulo 32 (44 R114). -/
def SpriteCovers (s : State) (x y : RegIdx) (rows : Nat) (xx : Fin 64) (yy : Fin 32) : Prop :=
  ∃ r c : Nat, r < rows ∧ c < 8 ∧ xx.val = ((s.getV x).toNat + c) % 64 ∧ yy.val = ((s.getV y).toNat + r) % 32 ∧
    (Memory.get s.mem (s.i.toNat + r)).getLsbD (7 - c) = true

/-- The record of a fault raised by an instruction in state `s` (60 R132). -/
def recordOf (s : State) (instr : Instr) (c : Cause) : FaultRecord := { cause := c, pc := s.pc, opcode := some (encode instr) }

end Sys2Proof.Machine
end

