-- ==== Sys2Proof/Certificates/Slice0/Obligations.lean ====
section
/-! DEFINITION. The statements about the machine, each from the numbered rules of spec/ its docstring names. `R<n>` is a rule, `D<n>` a
decision of 92_eei_decisions.md that the rule rests on. -/

open Sys2Proof Sys2Proof.Machine

/-! Encoding and decoding (30_encoding.md). -/

/-- Decoding the word, or the bytes, of any instruction gives it back, with every operand at every value the field admits (R71 to
R73); bytes that follow are left. For 8xy6 and 8xyE the operands include `y`, which the hardware does not decode (R74): that the model's
instruction keeps it is the model's choice (log entry 9). -/
def Obligations.DecodeEncodeRoundTrip : Prop :=
  ∀ i : Instr, decodeWord (encode i) = some i ∧ ∀ rest, decodeBytes (encodeBytes i ++ rest) = .instr i rest

/-- A word that decodes is the word of the instruction it decodes to. For 8xy6 and 8xyE this is the model's choice and not the spec's: R74
says that `y` is not decoded and that all its 16 values select the same instruction, while the model's constructors `shr` and `shl` keep it
(DESIGN CHOICE, log entry 9), so that no bit of a legal word is lost. -/
def Obligations.EncodeDecodeRoundTrip : Prop :=
  ∀ (op : Word) (i : Instr), decodeWord op = some i → encode i = op

/-- A decoded word selects the row of its own instruction in the opcode map and no other row of it: the decode procedure (R73) agrees
with the masks and patterns of the map (R76), whose patterns are pairwise disjoint. -/
def Obligations.DecodedWordSelectsItsRowOnly : Prop :=
  ∀ (op : Word) (i : Instr), decodeWord op = some i →
    i.row ∈ opcodeMap ∧ ∀ r ∈ opcodeMap, (r.selects op = true ↔ r = i.row)

/-- Decoding gives *unknown* exactly for the words that match no row of the map, and these are exactly the classes R77 tabulates. -/
def Obligations.UnknownWordsAreTheIllegalClasses : Prop :=
  ∀ op : Word, (decodeWord op = none ↔ legalWord op = false) ∧ (legalWord op = false ↔ illegalClass op)

/-- Words written out from R76 decode to the instructions they stand for, and near misses to none (that 812E keeps its ignored `y` is log
entry 9's choice). -/
def Obligations.SampleWordsDecode : Prop :=
  decodeWord 0x00EE = some .ret ∧ decodeWord 0x2300 = some (.call 0x300) ∧ decodeWord 0x5120 = some (.seReg 1 2) ∧
  decodeWord 0x81F4 = some (.addReg 1 15) ∧ decodeWord 0x812E = some (.shl 1 2) ∧ decodeWord 0xBFFF = some (.jpV0 0xFFF) ∧
  decodeWord 0xC30F = some (.rnd 3 0x0F) ∧ decodeWord 0xD014 = some (.drw 0 1 4) ∧ decodeWord 0xE1A1 = some (.sknp 1) ∧
  decodeWord 0xF365 = some (.loadRegs 3) ∧
  decodeWord 0x5121 = none ∧ decodeWord 0x8128 = none ∧ decodeWord 0xE19F = none ∧ decodeWord 0x0123 = none

/-! The step (60_exceptions.md R148, 20_memory.md R55). -/

/-- When the two bytes at PC decode to an instruction and the core is not faulted, the step is that instruction's own meaning, and
nothing stands around it. -/
def Obligations.StepRunsDecodedInstruction : Prop :=
  ∀ (s : State) (i : Instr), s.fault = none → s.pc.toNat ≤ 4094 →
    decodeBytes [Memory.get s.mem s.pc.toNat, Memory.get s.mem (s.pc.toNat + 1)] = .instr i [] →
    step s = exec i s

/-- The `STEP` event (R148), its checks in the order the rule gives them: a set latch makes it inert; a failing fetch, and then an
unknown word, writes the fault record and nothing else; otherwise the decoded instruction runs. -/
def Obligations.StepEventInOrder : Prop :=
  ∀ s : State,
    (∀ r, s.fault = some r → step s = .next s) ∧
    (s.fault = none → s.pc.toNat > 4094 →
      step s = .next { s with fault := some ⟨.outOfBounds .fetch (max s.pc.toNat 4096), s.pc, none⟩ }) ∧
    (s.fault = none → s.pc.toNat ≤ 4094 → ∀ op : Word,
      op.toNat = 256 * (Memory.get s.mem s.pc.toNat).toNat + (Memory.get s.mem (s.pc.toNat + 1)).toNat →
      (decodeWord op = none → step s = .next { s with fault := some ⟨.unknownOpcode, s.pc, some op⟩ }) ∧
      (∀ i, decodeWord op = some i → step s = exec i s))

/-- The fetch primitive (R55): it succeeds exactly when `pc <= 4094`, gives the byte at the lower address as the high byte, and
otherwise raises OutOfBounds(fetch) with the first address out of range (the number is D9's). -/
def Obligations.FetchBigEndianOrFault : Prop :=
  ∀ s : State,
    (s.pc.toNat ≤ 4094 → ∃ op, s.fetch = some op ∧
      op.extractLsb' 8 8 = Memory.get s.mem s.pc.toNat ∧ op.extractLsb' 0 8 = Memory.get s.mem (s.pc.toNat + 1) ∧
      s.npc.toNat = (s.pc.toNat + 2) % 65536) ∧
    (s.pc.toNat > 4094 → s.fetch = none ∧
      (s.fault = none → step s = .next { s with fault := some ⟨.outOfBounds .fetch (max s.pc.toNat 4096), s.pc, none⟩ }))

/-- No step is refused and none stops: every instruction in every state, and every step, answers a next state. -/
def Obligations.EveryStepAnswersNext : Prop :=
  (∀ (i : Instr) (s : State), ∃ t, exec i s = .next t) ∧ ∀ s : State, ∃ t, step s = .next t

/-- Faults are precise (R133, decision D8): a step that faults changes the latch and nothing else, and the record holds the
unadvanced PC and the word fetched, if one was. -/
def Obligations.FaultingStepChangesOnlyTheLatch : Prop :=
  ∀ (s t : State) (r : FaultRecord), s.fault = none → step s = .next t → t.fault = some r →
    t = { s with fault := some r } ∧ r.pc = s.pc ∧ r.opcode = s.fetch

/-- Each instruction raises exactly the fault of the spec's table in exactly the states the table names, and raising it writes the
record and nothing else; without the condition it leaves the latch as it is. -/
def Obligations.FaultsExactlyWhenTabulated : Prop :=
  ∀ (i : Instr) (s t : State), exec i s = .next t →
    match faultCondition s i with
    | some c => t = { s with fault := some (recordOf s i c) }
    | none => t.fault = s.fault

/-- Events while faulted (R150, decision D28): `STEP` is inert and reports the same record, the other events act as they do without the
latch and leave it set, the outputs stay readable, and `RESET` clears everything (all but the model's own field `rndIndex`, of which this
says nothing). -/
def Obligations.EventsWhileFaulted : Prop :=
  ∀ (font : Font) (s : State) (r : FaultRecord), s.fault = some r →
    s.event font .step = (s, .faulted r) ∧
    (∀ e : Event, e ≠ .step → e ≠ .reset →
      (s.event font e).1 = { ({ s with fault := none }.event font e).1 with fault := some r } ∧
      (s.event font e).2 = ({ s with fault := none }.event font e).2) ∧
    s.display = { s with fault := none }.display ∧ s.soundOn = { s with fault := none }.soundOn ∧
    (s.event font .reset).1.fault = none ∧
    { (s.event font .reset).1 with rndIndex := (State.powerOn font).rndIndex } = State.powerOn font

/-! Invariants. -/

/-- The machine's invariant holds right after power-on, whatever FONT is, and at `State.reset`, which is the power-on state with the default
FONT (R53's table, log entry 1). -/
def Obligations.ResetMeetsInvariant : Prop :=
  (∀ font : Font, (State.powerOn font).Inv) ∧ State.reset.Inv ∧ State.powerOn Params.font = State.reset

/-- Every step keeps the invariant: memory stays canonical, PC at most 0x10FE, occupied slots at most 0x1000, and a fault record's pc
equal to PC. -/
def Obligations.StepKeepsInvariant : Prop :=
  ∀ s t : State, s.Inv → step s = .next t → t.Inv

/-- Every host event keeps the invariant, so every run from a state that meets it does. -/
def Obligations.RunsKeepInvariant : Prop :=
  ∀ (font : Font) (s : State) (events : List Event), s.Inv → (s.runEvents font events).Inv

/-! Whole-machine rules over all instructions. -/

/-- Which instructions may write which state outside the general registers: the write columns of the spec's access matrix. -/
def Obligations.OnlyTheirInstructionsWriteState : Prop :=
  ∀ (i : Instr) (s t : State), exec i s = .next t →
    t.key = s.key ∧
    (t.dt = s.dt ∨ ∃ x, i = .ldDtVx x) ∧
    (t.st = s.st ∨ ∃ x, i = .ldStVx x) ∧
    (t.fb = s.fb ∨ i = .cls ∨ ∃ x y n, i = .drw x y n) ∧
    (t.stack = s.stack ∨ ∃ nnn, i = .call nnn) ∧
    (t.sp = s.sp ∨ i = .ret ∨ ∃ nnn, i = .call nnn) ∧
    (t.i = s.i ∨ (∃ nnn, i = .ldI nnn) ∨ (∃ x, i = .addI x) ∨ ∃ x, i = .ldFont x) ∧
    (t.rndIndex = s.rndIndex ∨ ∃ x kk, i = .rnd x kk) ∧
    ((∀ a, Memory.get t.mem a = Memory.get s.mem a) ∨ (∃ x, i = .ldBcd x) ∨ ∃ x, i = .storeRegs x)

/-- A general register that is no destination of the instruction keeps its value; in particular only the six flag writers touch VF
otherwise than as an ordinary destination. -/
def Obligations.OnlyDestinationRegistersChange : Prop :=
  ∀ (i : Instr) (s t : State) (r : RegIdx), exec i s = .next t → r ∉ destsOf i → t.getV r = s.getV r

/-- No instruction reads ST: two cores that differ in ST alone still differ in ST alone after a step. -/
def Obligations.SoundTimerIsNeverRead : Prop :=
  ∀ (s t : State) (b : Byte), step s = .next t → ∃ c, step { s with st := b } = .next { t with st := c }

/-- The contents of a slot that is not occupied cannot be observed: two cores that differ only there still do after a step. -/
def Obligations.DeadSlotsAreUnobservable : Prop :=
  ∀ (s t : State) (slots : Vector Word 16),
    (∀ k : Fin 16, k.val < s.sp.val → slots[k.val] = s.stack[k.val]) → step s = .next t →
    ∃ slots' : Vector Word 16, step { s with stack := slots } = .next { t with stack := slots' } ∧
      ∀ k : Fin 16, k.val < t.sp.val → slots'[k.val] = t.stack[k.val]

/-- The framebuffer reaches the rest of the state through the collision flag of Dxyn alone: two cores that differ in their framebuffers
alone differ after an instruction in nothing else, but for VF after Dxyn. -/
def Obligations.FramebufferReachesOnlyTheDrawFlag : Prop :=
  ∀ (i : Instr) (s t : State) (fb : Framebuffer), exec i s = .next t →
    ∃ (fb' : Framebuffer) (t' : State), exec i { s with fb := fb } = .next t' ∧
      (((∀ x y n, i ≠ .drw x y n) ∧ t' = { t with fb := fb' }) ∨
       ((∃ x y n, i = .drw x y n) ∧ ∃ b, t' = { t.setV vF b with fb := fb' }))

/-- Determinism: the random input is the only thing outside the state that a step depends on, and it reaches Cxkk alone. Two cores that
differ only in their place in the input end an instruction other than Cxkk so, and end Cxkk so when the input supplies both with the
same byte. -/
def Obligations.RandomInputReachesOnlyRnd : Prop :=
  ∀ (i : Instr) (s t : State) (n : Nat), exec i s = .next t →
    ((∀ x kk, i ≠ .rnd x kk) → exec i { s with rndIndex := n } = .next { t with rndIndex := n }) ∧
    (Config.rnd n = Config.rnd s.rndIndex → ∃ m, exec i { s with rndIndex := n } = .next { t with rndIndex := m })

/-! Power-on, reset and the host's events. -/

/-- The state after power-on (R160; the zeros are the spec's decisions D2 to D5), for every value of the configuration argument FONT (R9). -/
def Obligations.PowerOnValues : Prop :=
  ∀ font : Font,
  (State.powerOn font).pc = 0x0200 ∧ (State.powerOn font).i = 0 ∧ (State.powerOn font).sp = 0 ∧ (State.powerOn font).dt = 0 ∧
  (State.powerOn font).st = 0 ∧ (State.powerOn font).fault = none ∧
  (∀ x, (State.powerOn font).getV x = 0) ∧ (∀ k : Fin 16, (State.powerOn font).stack[k.val] = 0) ∧
  (∀ k : Fin 16, (State.powerOn font).key[k.val] = false) ∧
  (∀ xx yy, Framebuffer.cell (State.powerOn font).fb xx yy = false) ∧
  (∀ a (h : a < 80), Memory.get (State.powerOn font).mem a = font[a]) ∧
  (∀ a, 80 ≤ a → a < 4096 → Memory.get (State.powerOn font).mem a = 0)

/-- `RESET` (R161; decisions D4, D6) cannot fail and returns every piece of the spec's state to its power-on value, whatever the state was
before and whatever FONT is, so that a font that was overwritten is back; two resets in a row equal one. Of the model's own field `rndIndex`
the first clause says nothing. -/
def Obligations.ResetIsPowerOn : Prop :=
  ∀ (font : Font) (s : State), (s.event font .reset).2 = .done ∧
    { (s.event font .reset).1 with rndIndex := (State.powerOn font).rndIndex } = State.powerOn font ∧
    ((s.event font .reset).1.event font .reset).1 = (s.event font .reset).1

/-- `TIMER_TICK` (R141): each timer goes down by one, floored at 0, by its own value; nothing else changes. -/
def Obligations.TimerTickCountsDown : Prop :=
  ∀ (font : Font) (s : State), ∃ t, s.event font .timerTick = (t, .done) ∧
    t.dt.toNat = s.dt.toNat - 1 ∧ t.st.toNat = s.st.toNat - 1 ∧ t.pc = s.pc ∧ Unchanged [.dt, .st] s t

/-- `KEY(i, pressed)` (R144) sets that latch and nothing else. -/
def Obligations.KeyEventSetsOneLatch : Prop :=
  ∀ (font : Font) (s : State) (k : Fin 16) (pressed : Bool), ∃ t, s.event font (.key k pressed) = (t, .done) ∧
    (∀ j : Fin 16, t.key[j.val] = if j = k then pressed else s.key[j.val]) ∧ t.pc = s.pc ∧ Unchanged [.keys] s t

/-- `LOAD(data)` (R163, R164; decision D25): an image of at most 3584 bytes is copied verbatim to 0x200 and on, and nothing else is changed,
PC and the latch included; a longer one is refused whole, and the host receives OutOfBounds(load) with the end address asked for. -/
def Obligations.LoadCopiesImageOrIsRefused : Prop :=
  ∀ (font : Font) (s : State) (data : List Byte),
    (data.length ≤ 3584 → ∃ t, s.event font (.load data) = (t, .done) ∧
      (∀ k (h : k < data.length), Memory.get t.mem (0x200 + k) = data[k]) ∧ t.pc = s.pc ∧
      Unchanged (bytesFrom 0x200 data.length) s t) ∧
    (data.length > 3584 → s.event font (.load data) = (s, .loadRefused .load (0x200 + data.length)))

/-- The outputs: element k of the display view is the cell in column `k mod 64` and row `k div 64` (R145), and sound is on exactly when
ST is not 0 (R143). -/
def Obligations.DisplayAndSoundOutputs : Prop :=
  ∀ s : State,
    (∀ k (h : k < 2048), s.display[k] = Framebuffer.cell s.fb ⟨k % 64, by omega⟩ ⟨k / 64, by omega⟩) ∧
    (s.soundOn = true ↔ s.st.toNat ≠ 0)

/-! Families 0, 1 and 2 (40_flow_0_1_2.md). -/

/-- 0000 and 00E0 (R90, R91) complete in every state: NOP advances PC and does nothing else; CLS clears every cell, VF unchanged. -/
def Obligations.NopAndClsComplete : Prop :=
  ∀ s : State,
    (∃ t, exec .nop s = .next t ∧ t.pc = s.pc + 2 ∧ Unchanged [] s t) ∧
    (∃ t, exec .cls s = .next t ∧ t.pc = s.pc + 2 ∧ (∀ xx yy, Framebuffer.cell t.fb xx yy = false) ∧
      Unchanged [.cells] s t)

/-- 1nnn and Bnnn (R93, R112) complete in every state: PC becomes nnn, or nnn + V0 not reduced to 12 bits; nothing else changes. -/
def Obligations.JumpsSetPc : Prop :=
  ∀ (s : State) (nnn : Addr12),
    (∃ t, exec (.jp nnn) s = .next t ∧ t.pc.toNat = nnn.toNat ∧ Unchanged [] s t) ∧
    (∃ t, exec (.jpV0 nnn) s = .next t ∧ t.pc.toNat = nnn.toNat + (s.getV 0).toNat ∧ Unchanged [] s t)

/-- 2nnn (R94, decision D13): with a free slot it pushes npc and jumps; with sixteen slots occupied it raises StackOverflow. -/
def Obligations.CallPushesAndJumps : Prop :=
  ∀ (s : State) (nnn : Addr12),
    (∀ h : s.sp.val < 16, ∃ t, exec (.call nnn) s = .next t ∧ t.pc.toNat = nnn.toNat ∧ t.sp.val = s.sp.val + 1 ∧
      t.stack[s.sp.val] = s.pc + 2 ∧ (∀ k : Fin 16, k.val ≠ s.sp.val → t.stack[k.val] = s.stack[k.val]) ∧
      Unchanged [.slots, .sp] s t) ∧
    (s.sp.val = 16 → exec (.call nnn) s = .next { s with fault := some (recordOf s (.call nnn) .stackOverflow) })

/-- 00EE (R92, decision D13): with an occupied slot it pops PC, the slot keeping its contents; with none it raises StackUnderflow. -/
def Obligations.RetPopsPc : Prop :=
  ∀ s : State,
    (∀ h : 0 < s.sp.val, ∃ t, exec .ret s = .next t ∧ t.pc = s.stack[s.sp.val - 1] ∧ t.sp.val + 1 = s.sp.val ∧
      Unchanged [.sp] s t) ∧
    (s.sp.val = 0 → exec .ret s = .next { s with fault := some (recordOf s .ret .stackUnderflow) })

/-- A CALL and then, with the stack at the same depth, a RET: control is at the instruction after the CALL and SP is as before. -/
def Obligations.CallThenRetReturns : Prop :=
  ∀ (s t u : State) (nnn : Addr12), s.sp.val < 16 → exec (.call nnn) s = .next t → u.sp = t.sp → u.stack = t.stack →
    ∃ w, exec .ret u = .next w ∧ w.pc = s.pc + 2 ∧ w.sp = s.sp ∧
      ∀ k : Fin 16, k.val < s.sp.val → w.stack[k.val] = s.stack[k.val]

/-! Families 3 to 7 and 9 (41_skip_imm_3_to_7.md, 43_misc_9_to_C.md). -/

/-- 3xkk, 4xkk, 5xy0, 9xy0 (R95, R96, R97, R110) complete in every state: PC advances by 4 when the condition holds and by 2 when not;
nothing else changes. -/
def Obligations.SkipsOnEquality : Prop :=
  ∀ (s : State) (x y : RegIdx) (kk : Byte),
    (∃ t, exec (.seByte x kk) s = .next t ∧ t.pc = (if s.getV x = kk then s.pc + 4 else s.pc + 2) ∧ Unchanged [] s t) ∧
    (∃ t, exec (.sneByte x kk) s = .next t ∧ t.pc = (if s.getV x ≠ kk then s.pc + 4 else s.pc + 2) ∧ Unchanged [] s t) ∧
    (∃ t, exec (.seReg x y) s = .next t ∧ t.pc = (if s.getV x = s.getV y then s.pc + 4 else s.pc + 2) ∧
      Unchanged [] s t) ∧
    (∃ t, exec (.sneReg x y) s = .next t ∧ t.pc = (if s.getV x ≠ s.getV y then s.pc + 4 else s.pc + 2) ∧
      Unchanged [] s t)

/-- 6xkk, 7xkk, 8xy0 (R98, R99, R100) complete in every state: load an immediate, add one modulo 256 without a flag, copy a register. -/
def Obligations.LoadsAndAddImmediate : Prop :=
  ∀ (s : State) (x y : RegIdx) (kk : Byte),
    (∃ t, exec (.ldByte x kk) s = .next t ∧ t.pc = s.pc + 2 ∧ t.getV x = kk ∧ Unchanged [.reg x] s t) ∧
    (∃ t, exec (.addByte x kk) s = .next t ∧ t.pc = s.pc + 2 ∧
      (t.getV x).toNat = ((s.getV x).toNat + kk.toNat) % 256 ∧ Unchanged [.reg x] s t) ∧
    (∃ t, exec (.ldReg x y) s = .next t ∧ t.pc = s.pc + 2 ∧ t.getV x = s.getV y ∧ Unchanged [.reg x] s t)

/-! Family 8 (42_alu_8.md). -/

/-- 8xy1, 8xy2, 8xy3 (R101, R102, R103) complete in every state: OR, AND, XOR bit by bit, VF unchanged unless it is the destination. -/
def Obligations.LogicBitByBit : Prop :=
  ∀ (s : State) (x y : RegIdx),
    (∃ t, exec (.orReg x y) s = .next t ∧ t.pc = s.pc + 2 ∧
      (∀ k, k < 8 → (t.getV x).getLsbD k = ((s.getV x).getLsbD k || (s.getV y).getLsbD k)) ∧ Unchanged [.reg x] s t) ∧
    (∃ t, exec (.andReg x y) s = .next t ∧ t.pc = s.pc + 2 ∧
      (∀ k, k < 8 → (t.getV x).getLsbD k = ((s.getV x).getLsbD k && (s.getV y).getLsbD k)) ∧ Unchanged [.reg x] s t) ∧
    (∃ t, exec (.xorReg x y) s = .next t ∧ t.pc = s.pc + 2 ∧
      (∀ k, k < 8 → (t.getV x).getLsbD k = ((s.getV x).getLsbD k ^^ (s.getV y).getLsbD k)) ∧ Unchanged [.reg x] s t)

/-- 8xy4 (R104; for x = 0xF the order of the writes is R23's, decision D14) completes in every state: both operands are read first, Vx
becomes the sum modulo 256, and VF, written second, is 1 when the true sum exceeds 255 and 0 otherwise. -/
def Obligations.AddSetsCarry : Prop :=
  ∀ (s : State) (x y : RegIdx), ∃ t, exec (.addReg x y) s = .next t ∧ t.pc = s.pc + 2 ∧
    (t.getV vF).toNat = (if (s.getV x).toNat + (s.getV y).toNat > 255 then 1 else 0) ∧
    (x ≠ vF → (t.getV x).toNat = ((s.getV x).toNat + (s.getV y).toNat) % 256) ∧
    Unchanged [.reg x, .reg vF] s t

/-- 8xy5 and 8xy7 (R105, R107; D14 for x = 0xF) complete in every state: Vx becomes the difference modulo 256, and VF, written second,
is 1 when no borrow was needed, equal operands included, and 0 otherwise. -/
def Obligations.SubtractionsSetNoBorrow : Prop :=
  ∀ (s : State) (x y : RegIdx),
    (∃ t, exec (.subReg x y) s = .next t ∧ t.pc = s.pc + 2 ∧
      (t.getV vF).toNat = (if (s.getV x).toNat ≥ (s.getV y).toNat then 1 else 0) ∧
      (x ≠ vF → ((t.getV x).toNat : Int) = ((s.getV x).toNat - (s.getV y).toNat : Int) % 256) ∧
      Unchanged [.reg x, .reg vF] s t) ∧
    (∃ t, exec (.subnReg x y) s = .next t ∧ t.pc = s.pc + 2 ∧
      (t.getV vF).toNat = (if (s.getV y).toNat ≥ (s.getV x).toNat then 1 else 0) ∧
      (x ≠ vF → ((t.getV x).toNat : Int) = ((s.getV y).toNat - (s.getV x).toNat : Int) % 256) ∧
      Unchanged [.reg x, .reg vF] s t)

/-- 8xy6 and 8xyE (R106, R108) complete in every state, whatever the ignored `y`: VF is the bit shifted out and Vx the value shifted by
one; for x = 0xF the flag, written first, is what is shifted (R23, decision D14). -/
def Obligations.ShiftsReportTheBitOut : Prop :=
  ∀ (s : State) (x y : RegIdx),
    (∃ t, exec (.shr x y) s = .next t ∧ t.pc = s.pc + 2 ∧
      (x ≠ vF → (t.getV vF).toNat = (s.getV x).toNat % 2 ∧ (t.getV x).toNat = (s.getV x).toNat / 2) ∧
      (x = vF → t.getV vF = 0) ∧ Unchanged [.reg x, .reg vF] s t) ∧
    (∃ t, exec (.shl x y) s = .next t ∧ t.pc = s.pc + 2 ∧
      (x ≠ vF → (t.getV vF).toNat = (s.getV x).toNat / 128 ∧ (t.getV x).toNat = (s.getV x).toNat * 2 % 256) ∧
      (x = vF → (t.getV vF).toNat = (if (s.getV vF).toNat ≥ 128 then 2 else 0)) ∧ Unchanged [.reg x, .reg vF] s t)

/-- The variant SHIFT_SRC = VY of the two shifts, which is not this hardware and which the spec marks as general knowledge, for x other than
0xF, the case the spec defines: the value of Vy is shifted into Vx and VF is the bit shifted out of it. The shift itself changes nothing
else, PC included; advancing PC is the rest of the instruction. -/
def Obligations.ShiftVariantShiftsVy : Prop :=
  ∀ (s : State) (x y : RegIdx), x ≠ vF →
    ((s.shift .vy lowBitFlag (fun b => b >>> 1) x y).getV x).toNat = (s.getV y).toNat / 2 ∧
    ((s.shift .vy lowBitFlag (fun b => b >>> 1) x y).getV vF).toNat = (s.getV y).toNat % 2 ∧
    ((s.shift .vy topBitFlag (fun b => b <<< 1) x y).getV x).toNat = (s.getV y).toNat * 2 % 256 ∧
    ((s.shift .vy topBitFlag (fun b => b <<< 1) x y).getV vF).toNat = (s.getV y).toNat / 128 ∧
    (s.shift .vy lowBitFlag (fun b => b >>> 1) x y).pc = s.pc ∧ (s.shift .vy topBitFlag (fun b => b <<< 1) x y).pc = s.pc ∧
    Unchanged [.reg x, .reg vF] s (s.shift .vy lowBitFlag (fun b => b >>> 1) x y) ∧
    Unchanged [.reg x, .reg vF] s (s.shift .vy topBitFlag (fun b => b <<< 1) x y)

/-! Families A and C, and the index instructions of family F. -/

/-- Annn, Fx1E, Fx29 (R111, R123, R124) complete in every state: I becomes nnn, I + Vx modulo 65536 with no flag, or 5 * Vx with the
whole byte multiplied (decision D20). -/
def Obligations.IndexRegisterWrites : Prop :=
  ∀ (s : State) (x : RegIdx) (nnn : Addr12),
    (∃ t, exec (.ldI nnn) s = .next t ∧ t.pc = s.pc + 2 ∧ t.i.toNat = nnn.toNat ∧ Unchanged [.i] s t) ∧
    (∃ t, exec (.addI x) s = .next t ∧ t.pc = s.pc + 2 ∧ t.i.toNat = (s.i.toNat + (s.getV x).toNat) % 65536 ∧
      Unchanged [.i] s t) ∧
    (∃ t, exec (.ldFont x) s = .next t ∧ t.pc = s.pc + 2 ∧ t.i.toNat = 5 * (s.getV x).toNat ∧ Unchanged [.i] s t)

/-- Cxkk (R113, decision D22) completes in every state: exactly one byte is taken by `RndByte()`, whatever it is and also for kk = 0, and
Vx becomes that byte AND kk, so that no bit that kk has clear is ever set. -/
def Obligations.RndMasksOneByte : Prop :=
  ∀ (s : State) (x : RegIdx) (kk : Byte), ∃ t, exec (.rnd x kk) s = .next t ∧ t.pc = s.pc + 2 ∧
    t.rndIndex = s.rndByte.2.rndIndex ∧ t.getV x = s.rndByte.1 &&& kk ∧
    (∀ k, kk.getLsbD k = false → (t.getV x).getLsbD k = false) ∧ Unchanged [.reg x, .rnd] s t

/-! Family D (44_draw_D.md). -/

/-- Dxyn (R114; decisions D11, D16, D17): when the bytes I to I + n are in memory it completes, inverts exactly the cells under the 1 bits
of the n + 1 sprite rows at (Vx, Vy), coordinates wrapped, and sets VF to 1 when one of them was set and to 0 otherwise; else it raises
OutOfBounds(data_read) with the lowest address out of range and changes nothing else. -/
def Obligations.DrawXorsSpriteAndReportsCollision : Prop :=
  ∀ (s : State) (x y : RegIdx) (n : Fin 16),
    (s.i.toNat + n.val ≤ 4095 → ∃ t, exec (.drw x y n) s = .next t ∧ t.pc = s.pc + 2 ∧
      (∀ xx yy, SpriteCovers s x y (n.val + 1) xx yy →
        Framebuffer.cell t.fb xx yy = !Framebuffer.cell s.fb xx yy) ∧
      (∀ xx yy, ¬ SpriteCovers s x y (n.val + 1) xx yy →
        Framebuffer.cell t.fb xx yy = Framebuffer.cell s.fb xx yy) ∧
      ((∃ xx yy, SpriteCovers s x y (n.val + 1) xx yy ∧ Framebuffer.cell s.fb xx yy = true) → t.getV vF = 1) ∧
      ((∀ xx yy, SpriteCovers s x y (n.val + 1) xx yy → Framebuffer.cell s.fb xx yy = false) → t.getV vF = 0) ∧
      Unchanged [.reg vF, .cells] s t) ∧
    (s.i.toNat + n.val > 4095 →
      exec (.drw x y n) s =
        .next { s with fault := some (recordOf s (.drw x y n) (.outOfBounds .dataRead (max s.i.toNat 4096))) })

/-- Drawing the same sprite twice at the same place restores the framebuffer, and VF is then 1 exactly when some 1 bit fell on a cell that
was clear before the first draw (the spec's derived properties of the draw; x and y are not VF, which the first draw changes). -/
def Obligations.DrawTwiceRestores : Prop :=
  ∀ (s : State) (x y : RegIdx) (n : Fin 16), s.i.toNat + n.val ≤ 4095 → x ≠ vF → y ≠ vF →
    ∃ t u, exec (.drw x y n) s = .next t ∧ exec (.drw x y n) t = .next u ∧ u.fb = s.fb ∧
      (u.getV vF = 1 ↔ ∃ xx yy, SpriteCovers s x y (n.val + 1) xx yy ∧ Framebuffer.cell s.fb xx yy = false)

/-- Drawing onto a clear framebuffer gives VF = 0 and sets exactly the cells under the sprite's 1 bits. -/
def Obligations.DrawOnClearScreen : Prop :=
  ∀ (s : State) (x y : RegIdx) (n : Fin 16), s.i.toNat + n.val ≤ 4095 →
    (∀ xx yy, Framebuffer.cell s.fb xx yy = false) →
    ∃ t, exec (.drw x y n) s = .next t ∧ t.getV vF = 0 ∧
      ∀ xx yy, Framebuffer.cell t.fb xx yy = true ↔ SpriteCovers s x y (n.val + 1) xx yy

/-- The values of DRAW_ROWS that are not this hardware (R116; log entry 3): STRICT draws n rows and for n = 0 none, reading nothing and unable
to fault, with VF and PC the only changes; EXT16 draws n rows and for n = 0 sixteen; where their bytes are in memory both are otherwise the
inclusive draw of the same number of rows, and where not they fault. That they "otherwise behave as rule R114" the spec itself marks "from
general knowledge, not in source" (K4 of 93_implementation_defined.md): this is an inference of the spec's, not a rule of the source. -/
def Obligations.OtherDrawRowsDifferInCountOnly : Prop :=
  ∀ (s : State) (x y : RegIdx),
    s.draw .strict x y 0 = { s.setV vF 0 with pc := s.pc + 2 } ∧
    (∀ n m : Fin 16, m.val + 1 = n.val → s.i.toNat + m.val ≤ 4095 →
      s.draw .strict x y n = s.draw .inclusive x y m ∧ s.draw .ext16 x y n = s.draw .inclusive x y m) ∧
    (s.i.toNat + 15 ≤ 4095 → s.draw .ext16 x y 0 = s.draw .inclusive x y 15) ∧
    (s.i.toNat + 15 > 4095 →
      s.draw .ext16 x y 0 = { s with fault := some (recordOf s (.drw x y 0) (.outOfBounds .dataRead (max s.i.toNat 4096))) }) ∧
    (∀ n : Fin 16, n.val > 0 → s.draw .ext16 x y n = s.draw .strict x y n) ∧
    (∀ n : Fin 16, s.i.toNat + n.val > 4096 → n.val > 0 →
      s.draw .strict x y n = { s with fault := some (recordOf s (.drw x y n) (.outOfBounds .dataRead (max s.i.toNat 4096))) })

/-! Families E and F (45_keys_E.md, 46_family_F.md). -/

/-- Ex9E and ExA1 (R117, R118, decision D12): with Vx at most 15 each completes and skips on the latch Key[Vx]; with Vx above 15 it raises
OutOfBounds(key) with the value of Vx. -/
def Obligations.KeySkipsReadOneLatch : Prop :=
  ∀ (s : State) (x : RegIdx),
    (∀ k : Fin 16, (s.getV x).toNat = k.val →
      (∃ t, exec (.skp x) s = .next t ∧ t.pc = (if s.key[k.val] = true then s.pc + 4 else s.pc + 2) ∧ Unchanged [] s t) ∧
      (∃ t, exec (.sknp x) s = .next t ∧ t.pc = (if s.key[k.val] = false then s.pc + 4 else s.pc + 2) ∧
        Unchanged [] s t)) ∧
    ((s.getV x).toNat > 15 →
      exec (.skp x) s = .next { s with fault := some (recordOf s (.skp x) (.outOfBounds .key (s.getV x).toNat)) } ∧
      exec (.sknp x) s = .next { s with fault := some (recordOf s (.sknp x) (.outOfBounds .key (s.getV x).toNat)) })

/-- Fx07, Fx15, Fx18 (R119, R121, R122) complete in every state: DT is read, DT and ST are written. -/
def Obligations.TimerMoves : Prop :=
  ∀ (s : State) (x : RegIdx),
    (∃ t, exec (.ldVxDt x) s = .next t ∧ t.pc = s.pc + 2 ∧ t.getV x = s.dt ∧ Unchanged [.reg x] s t) ∧
    (∃ t, exec (.ldDtVx x) s = .next t ∧ t.pc = s.pc + 2 ∧ t.dt = s.getV x ∧ Unchanged [.dt] s t) ∧
    (∃ t, exec (.ldStVx x) s = .next t ∧ t.pc = s.pc + 2 ∧ t.st = s.getV x ∧ Unchanged [.st] s t)

/-- Fx0A (R120) completes when a key is pressed, with the least pressed key in Vx; with none pressed the step changes nothing at all, PC
included. -/
def Obligations.KeyWaitTakesLeastKeyOrRepeats : Prop :=
  ∀ (s : State) (x : RegIdx),
    (∀ k : Fin 16, s.key[k.val] = true → (∀ j : Fin 16, j < k → s.key[j.val] = false) →
      ∃ t, exec (.ldVxKey x) s = .next t ∧ t.pc = s.pc + 2 ∧ (t.getV x).toNat = k.val ∧ Unchanged [.reg x] s t) ∧
    ((∀ k : Fin 16, s.key[k.val] = false) → exec (.ldVxKey x) s = .next s)

/-- Fx33 (R125, decision D11): with I to I + 2 in memory it completes and writes the hundreds, tens and ones of Vx there; else it raises
OutOfBounds(data_write) and writes nothing. -/
def Obligations.BcdWritesThreeDigits : Prop :=
  ∀ (s : State) (x : RegIdx),
    (s.i.toNat + 2 ≤ 4095 → ∃ t, exec (.ldBcd x) s = .next t ∧ t.pc = s.pc + 2 ∧
      (Memory.get t.mem s.i.toNat).toNat = (s.getV x).toNat / 100 ∧
      (Memory.get t.mem (s.i.toNat + 1)).toNat = (s.getV x).toNat / 10 % 10 ∧
      (Memory.get t.mem (s.i.toNat + 2)).toNat = (s.getV x).toNat % 10 ∧
      Unchanged (bytesFrom s.i.toNat 3) s t) ∧
    (s.i.toNat + 2 > 4095 →
      exec (.ldBcd x) s =
        .next { s with fault := some (recordOf s (.ldBcd x) (.outOfBounds .dataWrite (max s.i.toNat 4096))) })

/-- Fx55 (R126, decisions D11, D21): with I to I + x in memory it completes and writes V0 to Vx there, I unchanged; else it raises
OutOfBounds(data_write) and writes nothing. -/
def Obligations.BlockStoreWritesRegisters : Prop :=
  ∀ (s : State) (x : RegIdx),
    (s.i.toNat + x.val ≤ 4095 → ∃ t, exec (.storeRegs x) s = .next t ∧ t.pc = s.pc + 2 ∧
      (∀ r : RegIdx, r ≤ x → Memory.get t.mem (s.i.toNat + r.val) = s.getV r) ∧
      Unchanged (bytesFrom s.i.toNat (x.val + 1)) s t) ∧
    (s.i.toNat + x.val > 4095 →
      exec (.storeRegs x) s =
        .next { s with fault := some (recordOf s (.storeRegs x) (.outOfBounds .dataWrite (max s.i.toNat 4096))) })

/-- Fx65 (R127, decisions D11, D21): with I to I + x in memory it completes and loads V0 to Vx from there, the registers above Vx, I and
memory unchanged; else it raises OutOfBounds(data_read) and writes no register. -/
def Obligations.BlockLoadReadsRegisters : Prop :=
  ∀ (s : State) (x : RegIdx),
    (s.i.toNat + x.val ≤ 4095 → ∃ t, exec (.loadRegs x) s = .next t ∧ t.pc = s.pc + 2 ∧
      (∀ r : RegIdx, r ≤ x → t.getV r = Memory.get s.mem (s.i.toNat + r.val)) ∧
      Unchanged ((destsOf (.loadRegs x)).map Part.reg) s t) ∧
    (s.i.toNat + x.val > 4095 →
      exec (.loadRegs x) s =
        .next { s with fault := some (recordOf s (.loadRegs x) (.outOfBounds .dataRead (max s.i.toNat 4096))) })

/-- Fx65 undoes Fx55 with the same x and I: whatever has happened to the registers in between, V0 to Vx are back. -/
def Obligations.BlockLoadUndoesBlockStore : Prop :=
  ∀ (s t u : State) (x : RegIdx), s.i.toNat + x.val ≤ 4095 → exec (.storeRegs x) s = .next t →
    u.i = s.i → u.mem = t.mem →
    ∃ w, exec (.loadRegs x) u = .next w ∧ ∀ r : RegIdx, r ≤ x → w.getV r = s.getV r

/-! Memory and the end of a run. -/

/-- A store is seen by the very next fetch: an unfaulted core whose Fx55 (with x at least 1) stores at the next instruction's own address
fetches V0 and V1 as its next word. -/
def Obligations.StoredCodeIsFetchedNext : Prop :=
  ∀ (s t : State) (x : RegIdx), 1 ≤ x.val → s.i = s.pc + 2 → s.i.toNat + x.val ≤ 4095 → exec (.storeRegs x) s = .next t →
    ∃ op, t.fetch = some op ∧ op.toNat = 256 * (s.getV 0).toNat + (s.getV 1).toNat

/-- Zeroed memory runs as NOPs (0x0000 is NOP): from an unfaulted core with zero bytes from PC on, k steps leave PC 2k further and nothing
else changed, and when that is the end of memory the next step raises OutOfBounds(fetch, 4096). -/
def Obligations.ZeroedMemoryRunsAsNops : Prop :=
  ∀ (k : Nat) (s : State), s.fault = none → s.pc.toNat + 2 * k ≤ 4096 →
    (∀ a, s.pc.toNat ≤ a → a < s.pc.toNat + 2 * k → Memory.get s.mem a = 0) →
    core.run k s = .next { s with pc := s.pc + BitVec.ofNat 16 (2 * k) } ∧
    (s.pc.toNat + 2 * k = 4096 →
      core.run (k + 1) s = .next { s with pc := 0x1000, fault := some ⟨.outOfBounds .fetch 4096, 0x1000, none⟩ })

/-- The recommended end of a run (the open parameter END_OF_RUN, log entry 12): at a jump to itself every number of steps leaves the whole
state unchanged. -/
def Obligations.SelfJumpStandsStill : Prop :=
  ∀ (s : State) (k : Nat), s.atSelfJump = true → core.run k s = .next s
end

