-- ==== Sys2Proof/Laws/Decode.lean ====
section
/-! SUPPORT. The fields of the words the four formats build, the word its fields determine, and the bytes of a word. -/

namespace Sys2Proof

/-- A nibble of a word as arithmetic on its number. -/
theorem nibble_val (op : Word) (lo : Nat) : (nibble op lo).val = op.toNat / 2 ^ lo % 16 := by
  simp [nibble, Nat.shiftRight_eq_div_pow]

theorem fieldKK_toNat (op : Word) : (fieldKK op).toNat = op.toNat % 256 := by
  simp [fieldKK]

theorem fieldNNN_toNat (op : Word) : (fieldNNN op).toNat = op.toNat % 4096 := by
  simp [fieldNNN]

@[simp] theorem nib_toNat (x : Fin 16) : (nib x).toNat = x.val := rfl

theorem append_toNat {a b : Nat} (x : BitVec a) (y : BitVec b) : (x ++ y).toNat = x.toNat * 2 ^ b + y.toNat := by
  rw [BitVec.toNat_append, ← Nat.shiftLeft_add_eq_or_of_lt y.isLt, Nat.shiftLeft_eq]

theorem wordNNN_toNat (d1 : BitVec 4) (nnn : Addr12) : (wordNNN d1 nnn).toNat = d1.toNat * 4096 + nnn.toNat :=
  append_toNat d1 nnn

theorem wordXKK_toNat (d1 : BitVec 4) (x : RegIdx) (kk : Byte) :
    (wordXKK d1 x kk).toNat = d1.toNat * 4096 + x.val * 256 + kk.toNat := by
  have h : (wordXKK d1 x kk).toNat = d1.toNat * 2 ^ (4 + 8) + ((nib x).toNat * 2 ^ 8 + kk.toNat) := by
    rw [← append_toNat, ← append_toNat]; rfl
  rw [h, nib_toNat]; omega

theorem wordXYN_toNat (d1 : BitVec 4) (x y : RegIdx) (n : Fin 16) :
    (wordXYN d1 x y n).toNat = d1.toNat * 4096 + x.val * 256 + y.val * 16 + n.val := by
  have h : (wordXYN d1 x y n).toNat =
      d1.toNat * 2 ^ (4 + (4 + 4)) + ((nib x).toNat * 2 ^ (4 + 4) + ((nib y).toNat * 2 ^ 4 + (nib n).toNat)) := by
    rw [← append_toNat, ← append_toNat, ← append_toNat]; rfl
  rw [h, nib_toNat, nib_toNat, nib_toNat]; omega

/-- The fields of a word of format NNN. -/
theorem fields_wordNNN (d1 : BitVec 4) (nnn : Addr12) :
    (fieldD1 (wordNNN d1 nnn)).val = d1.toNat ∧ fieldNNN (wordNNN d1 nnn) = nnn := by
  have h1 := d1.isLt
  have h2 := nnn.isLt
  constructor
  · rw [fieldD1, nibble_val, wordNNN_toNat]; omega
  · apply BitVec.eq_of_toNat_eq; rw [fieldNNN_toNat, wordNNN_toNat]; omega

/-- The fields of a word of format XKK or X. -/
theorem fields_wordXKK (d1 : BitVec 4) (x : RegIdx) (kk : Byte) :
    (fieldD1 (wordXKK d1 x kk)).val = d1.toNat ∧ fieldX (wordXKK d1 x kk) = x ∧ fieldKK (wordXKK d1 x kk) = kk := by
  have h1 := d1.isLt
  have h2 := kk.isLt
  have h3 := x.isLt
  refine ⟨?_, Fin.ext ?_, BitVec.eq_of_toNat_eq ?_⟩
  · rw [fieldD1, nibble_val, wordXKK_toNat]; omega
  · rw [fieldX, nibble_val, wordXKK_toNat]; omega
  · rw [fieldKK_toNat, wordXKK_toNat]; omega

/-- The fields of a word of format XY or XYN. -/
theorem fields_wordXYN (d1 : BitVec 4) (x y : RegIdx) (n : Fin 16) :
    (fieldD1 (wordXYN d1 x y n)).val = d1.toNat ∧ fieldX (wordXYN d1 x y n) = x ∧ fieldY (wordXYN d1 x y n) = y ∧
      fieldN (wordXYN d1 x y n) = n := by
  have h1 := d1.isLt
  refine ⟨?_, Fin.ext ?_, Fin.ext ?_, Fin.ext ?_⟩
  · rw [fieldD1, nibble_val, wordXYN_toNat]; omega
  · rw [fieldX, nibble_val, wordXYN_toNat]; omega
  · rw [fieldY, nibble_val, wordXYN_toNat]; omega
  · rw [fieldN, nibble_val, wordXYN_toNat]; omega

/-- A word is what format NNN builds from its fields. -/
theorem wordNNN_fields {op : Word} {d1 : BitVec 4} (h : (fieldD1 op).val = d1.toNat) : wordNNN d1 (fieldNNN op) = op := by
  apply BitVec.eq_of_toNat_eq
  rw [fieldD1, nibble_val] at h
  rw [wordNNN_toNat, fieldNNN_toNat, ← h]; omega

/-- A word is what format XKK builds from its fields. -/
theorem wordXKK_fields {op : Word} {d1 : BitVec 4} (h : (fieldD1 op).val = d1.toNat) :
    wordXKK d1 (fieldX op) (fieldKK op) = op := by
  apply BitVec.eq_of_toNat_eq
  rw [fieldD1, nibble_val] at h
  rw [wordXKK_toNat, fieldKK_toNat, ← h, fieldX, nibble_val]; omega

/-- A word is what format XYN builds from its fields. -/
theorem wordXYN_fields {op : Word} {d1 : BitVec 4} (h : (fieldD1 op).val = d1.toNat) :
    wordXYN d1 (fieldX op) (fieldY op) (fieldN op) = op := by
  apply BitVec.eq_of_toNat_eq
  rw [fieldD1, nibble_val] at h
  rw [wordXYN_toNat, ← h, fieldX, fieldY, fieldN, nibble_val, nibble_val, nibble_val]; omega

theorem and_ones {w : Nat} (x : BitVec w) : x &&& BitVec.allOnes w = x := by simp

theorem and_zeros {w : Nat} (x : BitVec w) : x &&& (0 : BitVec w) = 0 := by simp

/-- The mask of format NNN (30 R76) keeps d1. -/
theorem wordNNN_mask (d1 : BitVec 4) (nnn : Addr12) : wordNNN d1 nnn &&& 0xF000 = wordNNN d1 0 := by
  have h := BitVec.and_append (x₁ := d1) (x₂ := BitVec.allOnes 4) (y₁ := nnn) (y₂ := (0 : Addr12))
  rw [and_ones, and_zeros] at h
  exact h

/-- The mask of format XKK (30 R76) keeps d1. -/
theorem wordXKK_mask (d1 : BitVec 4) (x : RegIdx) (kk : Byte) : wordXKK d1 x kk &&& 0xF000 = wordNNN d1 0 :=
  wordNNN_mask d1 (nib x ++ kk)

/-- The mask of format X (30 R76) keeps d1 and the low byte. -/
theorem wordX_mask (d1 : BitVec 4) (x : RegIdx) (kk : Byte) : wordXKK d1 x kk &&& 0xF0FF = wordXKK d1 0 kk := by
  have h1 := BitVec.and_append (x₁ := nib x) (x₂ := (0 : BitVec 4)) (y₁ := kk) (y₂ := BitVec.allOnes 8)
  have h2 := BitVec.and_append (x₁ := d1) (x₂ := BitVec.allOnes 4) (y₁ := nib x ++ kk)
    (y₂ := (0 : BitVec 4) ++ BitVec.allOnes 8)
  rw [h1, and_ones, and_ones, and_zeros] at h2
  exact h2

/-- The mask of format XY (30 R76) keeps d1 and d4. -/
theorem wordXY_mask (d1 : BitVec 4) (x y : RegIdx) (n : Fin 16) : wordXYN d1 x y n &&& 0xF00F = wordXYN d1 0 0 n := by
  have h0 := BitVec.and_append (x₁ := nib y) (x₂ := (0 : BitVec 4)) (y₁ := nib n) (y₂ := BitVec.allOnes 4)
  have h1 := BitVec.and_append (x₁ := nib x) (x₂ := (0 : BitVec 4)) (y₁ := nib y ++ nib n)
    (y₂ := (0 : BitVec 4) ++ BitVec.allOnes 4)
  have h2 := BitVec.and_append (x₁ := d1) (x₂ := BitVec.allOnes 4) (y₁ := nib x ++ (nib y ++ nib n))
    (y₂ := (0 : BitVec 4) ++ ((0 : BitVec 4) ++ BitVec.allOnes 4))
  rw [h1, h0, and_ones, and_ones, and_zeros, and_zeros] at h2
  exact h2

/-- The mask of format XYN (30 R76) keeps d1. -/
theorem wordXYN_mask (d1 : BitVec 4) (x y : RegIdx) (n : Fin 16) : wordXYN d1 x y n &&& 0xF000 = wordNNN d1 0 :=
  wordNNN_mask d1 (nib x ++ (nib y ++ nib n))

/-- The bytes of a word give the word back (20 R54). -/
theorem wordOfBytes_bytes (op : Word) : wordOfBytes (op.extractLsb' 8 8) (op.extractLsb' 0 8) = op := by
  apply BitVec.eq_of_toNat_eq
  rw [wordOfBytes, append_toNat]
  simp [Nat.shiftRight_eq_div_pow]
  omega

/-- The bytes of the word of two bytes (20 R54). -/
theorem bytesOfWord_wordOfBytes (hi lo : Byte) : bytesOfWord (wordOfBytes hi lo) = [hi, lo] := by
  have h1 := hi.isLt
  have h2 := lo.isLt
  simp only [bytesOfWord, List.cons.injEq, and_true]
  constructor <;> apply BitVec.eq_of_toNat_eq <;>
    simp only [BitVec.extractLsb'_toNat, wordOfBytes, append_toNat, Nat.shiftRight_eq_div_pow] <;> omega

end Sys2Proof
end

