-- ==== Sys2Proof/Laws/Framebuffer.lean ====
section
/-! SUPPORT. The laws of the framebuffer and of the compositor: which cells a sprite toggles, and when it collides. -/

namespace Sys2Proof.Machine

theorem cellIndex_inj {xx xx' : Fin 64} {yy yy' : Fin 32} :
    cellIndex xx yy = cellIndex xx' yy' ↔ xx = xx' ∧ yy = yy' := by
  simp only [cellIndex, Fin.ext_iff]; omega

/-- A toggle inverts its own cell and no other. -/
theorem Framebuffer.cell_toggle (fb : Framebuffer) (xx xx' : Fin 64) (yy yy' : Fin 32) :
    Framebuffer.cell (Framebuffer.toggle fb xx yy) xx' yy' =
      if xx' = xx ∧ yy' = yy then !Framebuffer.cell fb xx' yy' else Framebuffer.cell fb xx' yy' := by
  have := cellIndex_inj (xx := xx) (xx' := xx') (yy := yy) (yy' := yy')
  simp only [Framebuffer.cell, Framebuffer.toggle, Vector.getElem_set, Fin.ext_iff] at this ⊢
  split <;> split <;> first | rfl | grind

@[simp] theorem Framebuffer.cell_clear (xx : Fin 64) (yy : Fin 32) :
    Framebuffer.cell Framebuffer.clear xx yy = false := by
  simp [Framebuffer.cell, Framebuffer.clear]

/-- Element `k` of the row-major view is the cell in column `k mod 64` and row `k div 64` (60 R145). -/
theorem Framebuffer.getElem_eq_cell (fb : Framebuffer) (k : Nat) (h : k < 2048) :
    fb[k] = Framebuffer.cell fb ⟨k % 64, by omega⟩ ⟨k / 64, by omega⟩ := by
  simp only [Framebuffer.cell, cellIndex]
  congr 1; omega

/-- Two framebuffers with the same cells are equal data. -/
theorem Framebuffer.ext_cell {fb fb' : Framebuffer}
    (h : ∀ xx yy, Framebuffer.cell fb xx yy = Framebuffer.cell fb' xx yy) : fb = fb' := by
  apply Vector.ext
  intro k hk
  rw [Framebuffer.getElem_eq_cell fb k hk, Framebuffer.getElem_eq_cell fb' k hk, h]

/-- Draw the given cells, each toggled in turn. -/
def plot (cells : List (Fin 64 × Fin 32)) (d : Drawing) : Drawing :=
  cells.foldl (fun d p => drawBit p.1 p.2 true d) d

/-- The cells under the 1 bits of a sprite row. -/
def litRow (bx : Byte) (yy : Fin 32) (row : Byte) : List (Fin 64 × Fin 32) :=
  ((List.range 8).filter fun c => row.getLsbD (7 - c)).map fun c => (wrapX bx c, yy)

/-- The cells under the 1 bits of the sprite rows from row `r` on. -/
def litRows (bx bY : Byte) : Nat → List Byte → List (Fin 64 × Fin 32)
  | _, [] => []
  | r, row :: rows => litRow bx (wrapY bY r) row ++ litRows bx bY (r + 1) rows

theorem drawRow_eq_plot (bx : Byte) (yy : Fin 32) (row : Byte) (d : Drawing) :
    drawRow bx yy row d = plot (litRow bx yy row) d := by
  unfold drawRow plot litRow
  generalize List.range 8 = cs
  induction cs generalizing d with
  | nil => rfl
  | cons c cs ih =>
    simp only [List.foldl_cons, List.filter_cons]
    rw [ih]
    split
    · next h => simp [h]
    · next h => simp [drawBit, h]

theorem drawRows_eq_plot (bx bY : Byte) (r : Nat) (rows : List Byte) (d : Drawing) :
    drawRows bx bY r rows d = plot (litRows bx bY r rows) d := by
  induction rows generalizing r d with
  | nil => rfl
  | cons row rows ih =>
    simp only [drawRows, litRows, ih, drawRow_eq_plot]
    simp [plot]

/-- Drawing distinct cells inverts exactly those cells, and collides when one of them was set. -/
theorem plot_spec {cells : List (Fin 64 × Fin 32)} (hn : cells.Nodup) (d : Drawing) :
    (∀ xx yy, Framebuffer.cell (plot cells d).1 xx yy =
        if (xx, yy) ∈ cells then !Framebuffer.cell d.1 xx yy else Framebuffer.cell d.1 xx yy) ∧
      (plot cells d).2 = (d.2 || cells.any fun p => Framebuffer.cell d.1 p.1 p.2) := by
  induction cells generalizing d with
  | nil => simp [plot]
  | cons p cells ih =>
    obtain ⟨px, py⟩ := p
    obtain ⟨hp, hn⟩ := List.nodup_cons.mp hn
    have step : plot ((px, py) :: cells) d = plot cells (drawBit px py true d) := rfl
    obtain ⟨ih1, ih2⟩ := ih hn (drawBit px py true d)
    rw [step]
    constructor
    · intro xx yy
      rw [ih1]
      simp only [drawBit, if_true, Framebuffer.cell_toggle, List.mem_cons, Prod.mk.injEq]
      by_cases h : xx = px ∧ yy = py
      · obtain ⟨rfl, rfl⟩ := h
        simp [hp]
      · simp [h]
    · rw [ih2]
      simp only [drawBit, if_true, List.any_cons, Bool.or_assoc]
      congr 2
      rw [Bool.eq_iff_iff]
      simp only [List.any_eq_true]
      refine exists_congr fun q => and_congr_right fun hq => ?_
      rw [Framebuffer.cell_toggle, if_neg]
      rintro ⟨h1, h2⟩
      exact hp (by rw [← h1, ← h2]; exact hq)

theorem mem_litRow {bx : Byte} {yy yy' : Fin 32} {row : Byte} {xx : Fin 64} :
    (xx, yy') ∈ litRow bx yy row ↔ yy' = yy ∧ ∃ c, c < 8 ∧ wrapX bx c = xx ∧ row.getLsbD (7 - c) = true := by
  simp only [litRow, List.mem_map, List.mem_filter, List.mem_range, Prod.mk.injEq]
  constructor
  · rintro ⟨c, ⟨h1, h2⟩, h3, h4⟩; exact ⟨h4.symm, c, h1, h3, h2⟩
  · rintro ⟨rfl, c, h1, h3, h2⟩; exact ⟨c, ⟨h1, h2⟩, h3, rfl⟩

/-- A 1 bit of the sprite falls on the cell (44 R114): bit `7 - c` of row `r`, drawn `c` columns right of and `r` rows below the
sprite's top-left cell, wrapped. -/
def Covered (bx bY : Byte) (rows : List Byte) (xx : Fin 64) (yy : Fin 32) : Prop :=
  ∃ r c, ∃ _ : r < rows.length, c < 8 ∧ wrapX bx c = xx ∧ wrapY bY r = yy ∧ rows[r].getLsbD (7 - c) = true

theorem mem_litRows {bx bY : Byte} {k : Nat} {rows : List Byte} {xx : Fin 64} {yy : Fin 32} :
    (xx, yy) ∈ litRows bx bY k rows ↔
      ∃ r c, ∃ _ : r < rows.length, c < 8 ∧ wrapX bx c = xx ∧ wrapY bY (k + r) = yy ∧ rows[r].getLsbD (7 - c) = true := by
  induction rows generalizing k with
  | nil => simp [litRows]
  | cons row rows ih =>
    simp only [litRows, List.mem_append, mem_litRow, ih]
    constructor
    · rintro (⟨rfl, c, h1, h2, h3⟩ | ⟨r, c, hr, h1, h2, h3, h4⟩)
      · exact ⟨0, c, by simp, h1, h2, rfl, h3⟩
      · exact ⟨r + 1, c, by simpa using hr, h1, h2, by rw [← h3]; congr 1; omega, h4⟩
    · rintro ⟨r, c, hr, h1, h2, h3, h4⟩
      cases r with
      | zero => exact .inl ⟨h3.symm, c, h1, h2, h4⟩
      | succ r =>
        refine .inr ⟨r, c, by simpa using hr, h1, h2, ?_, h4⟩
        rw [← h3]; congr 1; omega

theorem wrapX_inj {bx : Byte} {c c' : Nat} (h : c < 8) (h' : c' < 8) (he : wrapX bx c = wrapX bx c') : c = c' := by
  simp only [wrapX, Fin.ofNat, Fin.mk.injEq] at he; omega

theorem wrapY_inj {bY : Byte} {r r' : Nat} (h : r < r' + 32) (h' : r' < r + 32) (he : wrapY bY r = wrapY bY r') :
    r = r' := by
  simp only [wrapY, Fin.ofNat, Fin.mk.injEq] at he; omega

theorem litRow_nodup (bx : Byte) (yy : Fin 32) (row : Byte) : (litRow bx yy row).Nodup := by
  unfold litRow
  refine List.Nodup.map_on ?_ (List.nodup_range.filter _)
  intro c hc c' hc' he
  simp only [List.mem_filter, List.mem_range] at hc hc'
  exact wrapX_inj hc.1 hc'.1 (Prod.mk.inj he).1

/-- A sprite of at most 32 rows touches no cell twice (44 R114(c)). -/
theorem litRows_nodup (bx bY : Byte) (k : Nat) (rows : List Byte) (h : rows.length ≤ 32) :
    (litRows bx bY k rows).Nodup := by
  induction rows generalizing k with
  | nil => simp [litRows]
  | cons row rows ih =>
    simp only [List.length_cons] at h
    simp only [litRows, List.nodup_append]
    refine ⟨litRow_nodup _ _ _, ih _ (by omega), ?_⟩
    rintro ⟨x1, y1⟩ h1 ⟨x2, y2⟩ h2 he
    simp only [Prod.mk.injEq] at he
    obtain ⟨rfl, rfl⟩ := he
    rw [mem_litRow] at h1
    rw [mem_litRows] at h2
    obtain ⟨hy, -⟩ := h1
    obtain ⟨r, c, hr, -, -, hy', -⟩ := h2
    rw [hy] at hy'
    have := wrapY_inj (by omega) (by omega) hy'
    omega

/-- Everything a draw does (44 R114): it inverts exactly the covered cells, and it collides exactly when one of them was set. -/
theorem drawSprite_spec (bx bY : Byte) (rows : List Byte) (fb : Framebuffer) (h : rows.length ≤ 32) :
    (∀ xx yy, Covered bx bY rows xx yy →
        Framebuffer.cell (drawSprite bx bY rows fb).1 xx yy = !Framebuffer.cell fb xx yy) ∧
      (∀ xx yy, ¬ Covered bx bY rows xx yy →
        Framebuffer.cell (drawSprite bx bY rows fb).1 xx yy = Framebuffer.cell fb xx yy) ∧
      ((drawSprite bx bY rows fb).2 = true ↔
        ∃ xx yy, Covered bx bY rows xx yy ∧ Framebuffer.cell fb xx yy = true) := by
  have hc : ∀ xx yy, (xx, yy) ∈ litRows bx bY 0 rows ↔ Covered bx bY rows xx yy := by
    intro xx yy; rw [mem_litRows]; simp [Covered]
  obtain ⟨p1, p2⟩ := plot_spec (litRows_nodup bx bY 0 rows h) (fb, false)
  rw [← drawRows_eq_plot] at p1 p2
  refine ⟨fun xx yy hx => ?_, fun xx yy hx => ?_, ?_⟩
  · rw [drawSprite, p1, if_pos ((hc xx yy).mpr hx)]
  · rw [drawSprite, p1, if_neg (fun hm => hx ((hc xx yy).mp hm))]
  · rw [drawSprite, p2]
    simp only [Bool.false_or, List.any_eq_true, Prod.exists, hc]

end Sys2Proof.Machine
end

