-- ==== Sys2Proof/Laws/Memory.lean ====
section
/-! SUPPORT. The laws of memory: a read after writes, and every operation keeps the canonical form. -/

namespace Sys2Proof.Machine

theorem Memory.get_insert (m : Memory) (a k : Nat) (b : Byte) (h : ∀ c ∈ m, c.1 ≠ a) :
    Memory.get (Memory.insert m a b) k = if k = a then b else Memory.get m k := by
  induction m with
  | nil => simp [Memory.insert, Memory.get, eq_comm]
  | cons c m ih =>
    have hc : c.1 ≠ a := h c (by simp)
    have ih := ih fun d hd => h d (by simp [hd])
    simp only [Memory.insert]
    split
    · simp only [Memory.get, ih]
      grind
    · simp only [Memory.get]
      grind

theorem Memory.get_erase (m : Memory) (a k : Nat) :
    Memory.get (Memory.erase m a) k = if k = a then Memory.unlisted k else Memory.get m k := by
  induction m with
  | nil => simp [Memory.erase, Memory.get]
  | cons c m ih =>
    obtain ⟨k', b⟩ := c
    simp only [Memory.erase, List.filter_cons] at ih ⊢
    by_cases hk : k' = a
    · simp only [hk, bne_self_eq_false, Bool.false_eq_true, if_false, ih, Memory.get]
      grind
    · simp only [bne_iff_ne, ne_eq, hk, not_false_eq_true, if_true, Memory.get, ih]
      grind

theorem Memory.erase_absent (m : Memory) (a : Nat) : ∀ c ∈ Memory.erase m a, c.1 ≠ a := by
  simp [Memory.erase]

/-- A write changes the byte at its own address and no other (20 R61), in whatever list. -/
theorem Memory.get_set (m : Memory) (a k : Nat) (b : Byte) :
    Memory.get (Memory.set m a b) k = if k = a then b else Memory.get m k := by
  unfold Memory.set
  split
  · next h => rw [Memory.get_erase, h]; grind
  · rw [Memory.get_insert _ _ _ _ (Memory.erase_absent m a), Memory.get_erase]; grind

@[simp] theorem Memory.get_set_self (m : Memory) (a : Nat) (b : Byte) : Memory.get (Memory.set m a b) a = b := by
  simp [Memory.get_set]

theorem Memory.get_set_ne (m : Memory) {a k : Nat} (b : Byte) (h : k ≠ a) :
    Memory.get (Memory.set m a b) k = Memory.get m k := by
  simp [Memory.get_set, h]

/-- Bytes written at rising addresses (20 R56): those bytes change and no other. -/
theorem Memory.get_setBytes (m : Memory) (a k : Nat) (bs : List Byte) :
    Memory.get (Memory.setBytes m a bs) k =
      if a ≤ k ∧ k < a + bs.length then bs.getD (k - a) 0 else Memory.get m k := by
  induction bs generalizing m a with
  | nil => simp [Memory.setBytes]
  | cons b bs ih =>
    simp only [Memory.setBytes, ih, Memory.get_set, List.length_cons]
    rcases Nat.lt_trichotomy k a with h | h | h
    · rw [if_neg (by omega), if_neg (by omega), if_neg (by omega)]
    · subst h; simp
    · obtain ⟨j, rfl⟩ : ∃ j, k = a + 1 + j := ⟨k - (a + 1), by omega⟩
      have e1 : a + 1 + j - (a + 1) = j := by omega
      have e2 : a + 1 + j - a = j + 1 := by omega
      rw [e1, e2]
      simp only [List.getD_cons_succ]
      split <;> split <;> first | rfl | omega | (rw [if_neg (by omega)])

theorem Memory.get_setBytes_outside (m : Memory) (a k : Nat) (bs : List Byte) (h : k < a ∨ a + bs.length ≤ k) :
    Memory.get (Memory.setBytes m a bs) k = Memory.get m k := by
  rw [Memory.get_setBytes, if_neg (by omega)]

@[simp] theorem Memory.length_getBytes (m : Memory) (a n : Nat) : (Memory.getBytes m a n).length = n := by
  induction n generalizing a with
  | zero => rfl
  | succ n ih => simp [Memory.getBytes, ih]

/-- Bytes read at rising addresses (20 R56). -/
theorem Memory.getElem_getBytes (m : Memory) (a n r : Nat) (h : r < (Memory.getBytes m a n).length) :
    (Memory.getBytes m a n)[r] = Memory.get m (a + r) := by
  induction n generalizing a r with
  | zero => simp [Memory.getBytes] at h
  | succ n ih =>
    cases r with
    | zero => simp [Memory.getBytes]
    | succ r =>
      simp only [Memory.getBytes, List.getElem_cons_succ]
      rw [ih]; congr 1; omega

/-! The canonical form. -/

theorem Memory.wfFrom_mono {lo lo' : Nat} {m : Memory} (hl : lo' ≤ lo) (h : Memory.wfFrom lo m = true) :
    Memory.wfFrom lo' m = true := by
  cases m with
  | nil => rfl
  | cons c m =>
    simp only [Memory.wfFrom, Bool.and_eq_true, decide_eq_true_eq] at h ⊢
    exact ⟨⟨⟨by omega, h.1.1.2⟩, h.1.2⟩, h.2⟩

theorem Memory.wfFrom_erase {lo : Nat} {m : Memory} (a : Nat) (h : Memory.wfFrom lo m = true) :
    Memory.wfFrom lo (Memory.erase m a) = true := by
  induction m generalizing lo with
  | nil => rfl
  | cons c m ih =>
    obtain ⟨k, b⟩ := c
    simp only [Memory.wfFrom, Bool.and_eq_true, decide_eq_true_eq] at h
    obtain ⟨⟨⟨h1, h2⟩, h3⟩, h4⟩ := h
    simp only [Memory.erase, List.filter_cons]
    split
    · simp only [Memory.wfFrom, Bool.and_eq_true, decide_eq_true_eq]
      exact ⟨⟨⟨h1, h2⟩, h3⟩, ih h4⟩
    · exact Memory.wfFrom_mono (by omega) (ih h4)

theorem Memory.wfFrom_insert {lo a : Nat} {b : Byte} {m : Memory} (h : Memory.wfFrom lo m = true) (hlo : lo ≤ a)
    (ha : a < Config.memSize) (hb : b ≠ Memory.unlisted a) (hm : ∀ c ∈ m, c.1 ≠ a) :
    Memory.wfFrom lo (Memory.insert m a b) = true := by
  induction m generalizing lo with
  | nil => simp only [Memory.insert, Memory.wfFrom, Bool.and_eq_true, decide_eq_true_eq, bne_iff_ne]; exact ⟨⟨⟨hlo, ha⟩, hb⟩, trivial⟩
  | cons c m ih =>
    obtain ⟨k, b'⟩ := c
    have hk : k ≠ a := hm (k, b') (by simp)
    simp only [Memory.wfFrom, Bool.and_eq_true, decide_eq_true_eq] at h
    obtain ⟨⟨⟨h1, h2⟩, h3⟩, h4⟩ := h
    simp only [Memory.insert]
    split
    · simp only [Memory.wfFrom, Bool.and_eq_true, decide_eq_true_eq]
      exact ⟨⟨⟨h1, h2⟩, h3⟩, ih h4 (by omega) fun d hd => hm d (by simp [hd])⟩
    · simp only [Memory.wfFrom, Bool.and_eq_true, decide_eq_true_eq, bne_iff_ne] at h3 ⊢
      exact ⟨⟨⟨hlo, ha⟩, hb⟩, ⟨⟨by omega, h2⟩, h3⟩, h4⟩

/-- A write inside memory keeps the canonical form. -/
theorem Memory.wf_set {m : Memory} {a : Nat} (b : Byte) (h : Memory.wf m = true) (ha : a < Config.memSize) :
    Memory.wf (Memory.set m a b) = true := by
  unfold Memory.set Memory.wf at *
  split
  · exact Memory.wfFrom_erase a h
  · next hb => exact Memory.wfFrom_insert (Memory.wfFrom_erase a h) (by omega) ha hb (Memory.erase_absent m a)

/-- Writes inside memory keep the canonical form. -/
theorem Memory.wf_setBytes {m : Memory} {a : Nat} {bs : List Byte} (h : Memory.wf m = true)
    (ha : a + bs.length ≤ Config.memSize) : Memory.wf (Memory.setBytes m a bs) = true := by
  induction bs generalizing m a with
  | nil => exact h
  | cons b bs ih =>
    simp only [List.length_cons] at ha
    exact ih (Memory.wf_set b h (by omega)) (by omega)

/-- Memory right after reset has the canonical form. -/
theorem Memory.wf_reset : Memory.wf State.reset.mem = true := rfl

/-- What memory reads as right after reset with the default FONT (10 R38). -/
theorem Memory.get_reset (a : Nat) : Memory.get State.reset.mem a = Params.fontTable.getD a 0 := rfl

/-- Two memories in canonical form that read alike are equal data. -/
theorem Memory.eq_of_get {lo : Nat} {m m' : Memory} (h : Memory.wfFrom lo m = true) (h' : Memory.wfFrom lo m' = true)
    (hg : ∀ a, Memory.get m a = Memory.get m' a) : m = m' := by
  have low : ∀ {m : Memory} {lo a : Nat}, Memory.wfFrom lo m = true → a < lo → Memory.get m a = Memory.unlisted a := by
    intro m
    induction m with
    | nil => intros; rfl
    | cons c m ih =>
      intro lo a h ha
      obtain ⟨k, b⟩ := c
      simp only [Memory.wfFrom, Bool.and_eq_true, decide_eq_true_eq] at h
      simp only [Memory.get]
      rw [if_neg (by omega)]
      exact ih h.2 (by omega)
  induction m generalizing lo m' with
  | nil =>
    cases m' with
    | nil => rfl
    | cons c m' =>
      obtain ⟨k, b⟩ := c
      simp only [Memory.wfFrom, Bool.and_eq_true, decide_eq_true_eq, bne_iff_ne] at h'
      have := hg k
      simp only [Memory.get, if_true] at this
      exact absurd this.symm h'.1.2
  | cons c m ih =>
    obtain ⟨k, b⟩ := c
    simp only [Memory.wfFrom, Bool.and_eq_true, decide_eq_true_eq, bne_iff_ne] at h
    cases m' with
    | nil =>
      have := hg k
      simp only [Memory.get, if_true] at this
      exact absurd this h.1.2
    | cons c' m' =>
      obtain ⟨k', b'⟩ := c'
      simp only [Memory.wfFrom, Bool.and_eq_true, decide_eq_true_eq, bne_iff_ne] at h'
      rcases Nat.lt_trichotomy k k' with hk | hk | hk
      · have := hg k
        simp only [Memory.get, if_true] at this
        rw [if_neg (by omega), low h'.2 (by omega)] at this
        exact absurd this h.1.2
      · subst hk
        have hb := hg k
        simp only [Memory.get, if_true] at hb
        subst hb
        rw [ih h.2 h'.2]
        intro a
        rcases Nat.lt_or_ge a (k + 1) with ha | ha
        · rw [low h.2 ha, low h'.2 ha]
        · have := hg a
          simp only [Memory.get] at this
          rwa [if_neg (by omega), if_neg (by omega)] at this
      · have := hg k'
        simp only [Memory.get, if_true] at this
        rw [if_neg (by omega), low h.2 (by omega)] at this
        exact absurd this.symm h'.1.2

end Sys2Proof.Machine
end

