-- ==== Sys2Proof/Laws/State.lean ====
section
/-! SUPPORT. What each update of the state leaves in each field: one lemma per field per update, all by rfl. -/

namespace Sys2Proof.Machine

@[simp] theorem State.setI_mem (s : State) (w : Word) : (s.setI w).mem = s.mem := rfl
@[simp] theorem State.setI_v (s : State) (w : Word) : (s.setI w).v = s.v := rfl
@[simp] theorem State.setI_i (s : State) (w : Word) : (s.setI w).i = w := rfl
@[simp] theorem State.setI_pc (s : State) (w : Word) : (s.setI w).pc = s.pc := rfl
@[simp] theorem State.setI_stack (s : State) (w : Word) : (s.setI w).stack = s.stack := rfl
@[simp] theorem State.setI_sp (s : State) (w : Word) : (s.setI w).sp = s.sp := rfl
@[simp] theorem State.setI_dt (s : State) (w : Word) : (s.setI w).dt = s.dt := rfl
@[simp] theorem State.setI_st (s : State) (w : Word) : (s.setI w).st = s.st := rfl
@[simp] theorem State.setI_key (s : State) (w : Word) : (s.setI w).key = s.key := rfl
@[simp] theorem State.setI_fb (s : State) (w : Word) : (s.setI w).fb = s.fb := rfl
@[simp] theorem State.setI_fault (s : State) (w : Word) : (s.setI w).fault = s.fault := rfl
@[simp] theorem State.setI_rndIndex (s : State) (w : Word) : (s.setI w).rndIndex = s.rndIndex := rfl

@[simp] theorem State.setPc_mem (s : State) (w : Word) : (s.setPc w).mem = s.mem := rfl
@[simp] theorem State.setPc_v (s : State) (w : Word) : (s.setPc w).v = s.v := rfl
@[simp] theorem State.setPc_i (s : State) (w : Word) : (s.setPc w).i = s.i := rfl
@[simp] theorem State.setPc_pc (s : State) (w : Word) : (s.setPc w).pc = w := rfl
@[simp] theorem State.setPc_stack (s : State) (w : Word) : (s.setPc w).stack = s.stack := rfl
@[simp] theorem State.setPc_sp (s : State) (w : Word) : (s.setPc w).sp = s.sp := rfl
@[simp] theorem State.setPc_dt (s : State) (w : Word) : (s.setPc w).dt = s.dt := rfl
@[simp] theorem State.setPc_st (s : State) (w : Word) : (s.setPc w).st = s.st := rfl
@[simp] theorem State.setPc_key (s : State) (w : Word) : (s.setPc w).key = s.key := rfl
@[simp] theorem State.setPc_fb (s : State) (w : Word) : (s.setPc w).fb = s.fb := rfl
@[simp] theorem State.setPc_fault (s : State) (w : Word) : (s.setPc w).fault = s.fault := rfl
@[simp] theorem State.setPc_rndIndex (s : State) (w : Word) : (s.setPc w).rndIndex = s.rndIndex := rfl

@[simp] theorem State.setDt_mem (s : State) (b : Byte) : (s.setDt b).mem = s.mem := rfl
@[simp] theorem State.setDt_v (s : State) (b : Byte) : (s.setDt b).v = s.v := rfl
@[simp] theorem State.setDt_i (s : State) (b : Byte) : (s.setDt b).i = s.i := rfl
@[simp] theorem State.setDt_pc (s : State) (b : Byte) : (s.setDt b).pc = s.pc := rfl
@[simp] theorem State.setDt_stack (s : State) (b : Byte) : (s.setDt b).stack = s.stack := rfl
@[simp] theorem State.setDt_sp (s : State) (b : Byte) : (s.setDt b).sp = s.sp := rfl
@[simp] theorem State.setDt_dt (s : State) (b : Byte) : (s.setDt b).dt = b := rfl
@[simp] theorem State.setDt_st (s : State) (b : Byte) : (s.setDt b).st = s.st := rfl
@[simp] theorem State.setDt_key (s : State) (b : Byte) : (s.setDt b).key = s.key := rfl
@[simp] theorem State.setDt_fb (s : State) (b : Byte) : (s.setDt b).fb = s.fb := rfl
@[simp] theorem State.setDt_fault (s : State) (b : Byte) : (s.setDt b).fault = s.fault := rfl
@[simp] theorem State.setDt_rndIndex (s : State) (b : Byte) : (s.setDt b).rndIndex = s.rndIndex := rfl

@[simp] theorem State.setSt_mem (s : State) (b : Byte) : (s.setSt b).mem = s.mem := rfl
@[simp] theorem State.setSt_v (s : State) (b : Byte) : (s.setSt b).v = s.v := rfl
@[simp] theorem State.setSt_i (s : State) (b : Byte) : (s.setSt b).i = s.i := rfl
@[simp] theorem State.setSt_pc (s : State) (b : Byte) : (s.setSt b).pc = s.pc := rfl
@[simp] theorem State.setSt_stack (s : State) (b : Byte) : (s.setSt b).stack = s.stack := rfl
@[simp] theorem State.setSt_sp (s : State) (b : Byte) : (s.setSt b).sp = s.sp := rfl
@[simp] theorem State.setSt_dt (s : State) (b : Byte) : (s.setSt b).dt = s.dt := rfl
@[simp] theorem State.setSt_st (s : State) (b : Byte) : (s.setSt b).st = b := rfl
@[simp] theorem State.setSt_key (s : State) (b : Byte) : (s.setSt b).key = s.key := rfl
@[simp] theorem State.setSt_fb (s : State) (b : Byte) : (s.setSt b).fb = s.fb := rfl
@[simp] theorem State.setSt_fault (s : State) (b : Byte) : (s.setSt b).fault = s.fault := rfl
@[simp] theorem State.setSt_rndIndex (s : State) (b : Byte) : (s.setSt b).rndIndex = s.rndIndex := rfl

@[simp] theorem State.setFb_mem (s : State) (fb : Framebuffer) : (s.setFb fb).mem = s.mem := rfl
@[simp] theorem State.setFb_v (s : State) (fb : Framebuffer) : (s.setFb fb).v = s.v := rfl
@[simp] theorem State.setFb_i (s : State) (fb : Framebuffer) : (s.setFb fb).i = s.i := rfl
@[simp] theorem State.setFb_pc (s : State) (fb : Framebuffer) : (s.setFb fb).pc = s.pc := rfl
@[simp] theorem State.setFb_stack (s : State) (fb : Framebuffer) : (s.setFb fb).stack = s.stack := rfl
@[simp] theorem State.setFb_sp (s : State) (fb : Framebuffer) : (s.setFb fb).sp = s.sp := rfl
@[simp] theorem State.setFb_dt (s : State) (fb : Framebuffer) : (s.setFb fb).dt = s.dt := rfl
@[simp] theorem State.setFb_st (s : State) (fb : Framebuffer) : (s.setFb fb).st = s.st := rfl
@[simp] theorem State.setFb_key (s : State) (fb : Framebuffer) : (s.setFb fb).key = s.key := rfl
@[simp] theorem State.setFb_fb (s : State) (fb : Framebuffer) : (s.setFb fb).fb = fb := rfl
@[simp] theorem State.setFb_fault (s : State) (fb : Framebuffer) : (s.setFb fb).fault = s.fault := rfl
@[simp] theorem State.setFb_rndIndex (s : State) (fb : Framebuffer) : (s.setFb fb).rndIndex = s.rndIndex := rfl

@[simp] theorem State.setMem_mem (s : State) (m : Memory) : (s.setMem m).mem = m := rfl
@[simp] theorem State.setMem_v (s : State) (m : Memory) : (s.setMem m).v = s.v := rfl
@[simp] theorem State.setMem_i (s : State) (m : Memory) : (s.setMem m).i = s.i := rfl
@[simp] theorem State.setMem_pc (s : State) (m : Memory) : (s.setMem m).pc = s.pc := rfl
@[simp] theorem State.setMem_stack (s : State) (m : Memory) : (s.setMem m).stack = s.stack := rfl
@[simp] theorem State.setMem_sp (s : State) (m : Memory) : (s.setMem m).sp = s.sp := rfl
@[simp] theorem State.setMem_dt (s : State) (m : Memory) : (s.setMem m).dt = s.dt := rfl
@[simp] theorem State.setMem_st (s : State) (m : Memory) : (s.setMem m).st = s.st := rfl
@[simp] theorem State.setMem_key (s : State) (m : Memory) : (s.setMem m).key = s.key := rfl
@[simp] theorem State.setMem_fb (s : State) (m : Memory) : (s.setMem m).fb = s.fb := rfl
@[simp] theorem State.setMem_fault (s : State) (m : Memory) : (s.setMem m).fault = s.fault := rfl
@[simp] theorem State.setMem_rndIndex (s : State) (m : Memory) : (s.setMem m).rndIndex = s.rndIndex := rfl

@[simp] theorem State.setV_mem (s : State) (x : RegIdx) (b : Byte) : (s.setV x b).mem = s.mem := rfl
@[simp] theorem State.setV_v (s : State) (x : RegIdx) (b : Byte) : (s.setV x b).v = s.v.set x.val b := rfl
@[simp] theorem State.setV_i (s : State) (x : RegIdx) (b : Byte) : (s.setV x b).i = s.i := rfl
@[simp] theorem State.setV_pc (s : State) (x : RegIdx) (b : Byte) : (s.setV x b).pc = s.pc := rfl
@[simp] theorem State.setV_stack (s : State) (x : RegIdx) (b : Byte) : (s.setV x b).stack = s.stack := rfl
@[simp] theorem State.setV_sp (s : State) (x : RegIdx) (b : Byte) : (s.setV x b).sp = s.sp := rfl
@[simp] theorem State.setV_dt (s : State) (x : RegIdx) (b : Byte) : (s.setV x b).dt = s.dt := rfl
@[simp] theorem State.setV_st (s : State) (x : RegIdx) (b : Byte) : (s.setV x b).st = s.st := rfl
@[simp] theorem State.setV_key (s : State) (x : RegIdx) (b : Byte) : (s.setV x b).key = s.key := rfl
@[simp] theorem State.setV_fb (s : State) (x : RegIdx) (b : Byte) : (s.setV x b).fb = s.fb := rfl
@[simp] theorem State.setV_fault (s : State) (x : RegIdx) (b : Byte) : (s.setV x b).fault = s.fault := rfl
@[simp] theorem State.setV_rndIndex (s : State) (x : RegIdx) (b : Byte) : (s.setV x b).rndIndex = s.rndIndex := rfl

@[simp] theorem State.setKey_mem (s : State) (k : Fin 16) (p : Bool) : (s.setKey k p).mem = s.mem := rfl
@[simp] theorem State.setKey_v (s : State) (k : Fin 16) (p : Bool) : (s.setKey k p).v = s.v := rfl
@[simp] theorem State.setKey_i (s : State) (k : Fin 16) (p : Bool) : (s.setKey k p).i = s.i := rfl
@[simp] theorem State.setKey_pc (s : State) (k : Fin 16) (p : Bool) : (s.setKey k p).pc = s.pc := rfl
@[simp] theorem State.setKey_stack (s : State) (k : Fin 16) (p : Bool) : (s.setKey k p).stack = s.stack := rfl
@[simp] theorem State.setKey_sp (s : State) (k : Fin 16) (p : Bool) : (s.setKey k p).sp = s.sp := rfl
@[simp] theorem State.setKey_dt (s : State) (k : Fin 16) (p : Bool) : (s.setKey k p).dt = s.dt := rfl
@[simp] theorem State.setKey_st (s : State) (k : Fin 16) (p : Bool) : (s.setKey k p).st = s.st := rfl
@[simp] theorem State.setKey_key (s : State) (k : Fin 16) (p : Bool) : (s.setKey k p).key = s.key.set k.val p := rfl
@[simp] theorem State.setKey_fb (s : State) (k : Fin 16) (p : Bool) : (s.setKey k p).fb = s.fb := rfl
@[simp] theorem State.setKey_fault (s : State) (k : Fin 16) (p : Bool) : (s.setKey k p).fault = s.fault := rfl
@[simp] theorem State.setKey_rndIndex (s : State) (k : Fin 16) (p : Bool) : (s.setKey k p).rndIndex = s.rndIndex := rfl

@[simp] theorem State.advance_mem (s : State) : (s.advance).mem = s.mem := rfl
@[simp] theorem State.advance_v (s : State) : (s.advance).v = s.v := rfl
@[simp] theorem State.advance_i (s : State) : (s.advance).i = s.i := rfl
@[simp] theorem State.advance_pc (s : State) : (s.advance).pc = s.pc + 2 := rfl
@[simp] theorem State.advance_stack (s : State) : (s.advance).stack = s.stack := rfl
@[simp] theorem State.advance_sp (s : State) : (s.advance).sp = s.sp := rfl
@[simp] theorem State.advance_dt (s : State) : (s.advance).dt = s.dt := rfl
@[simp] theorem State.advance_st (s : State) : (s.advance).st = s.st := rfl
@[simp] theorem State.advance_key (s : State) : (s.advance).key = s.key := rfl
@[simp] theorem State.advance_fb (s : State) : (s.advance).fb = s.fb := rfl
@[simp] theorem State.advance_fault (s : State) : (s.advance).fault = s.fault := rfl
@[simp] theorem State.advance_rndIndex (s : State) : (s.advance).rndIndex = s.rndIndex := rfl

@[simp] theorem State.skipIf_mem (s : State) (c : Bool) : (s.skipIf c).mem = s.mem := rfl
@[simp] theorem State.skipIf_v (s : State) (c : Bool) : (s.skipIf c).v = s.v := rfl
@[simp] theorem State.skipIf_i (s : State) (c : Bool) : (s.skipIf c).i = s.i := rfl
@[simp] theorem State.skipIf_pc (s : State) (c : Bool) : (s.skipIf c).pc = if c then s.npc + 2 else s.npc := rfl
@[simp] theorem State.skipIf_stack (s : State) (c : Bool) : (s.skipIf c).stack = s.stack := rfl
@[simp] theorem State.skipIf_sp (s : State) (c : Bool) : (s.skipIf c).sp = s.sp := rfl
@[simp] theorem State.skipIf_dt (s : State) (c : Bool) : (s.skipIf c).dt = s.dt := rfl
@[simp] theorem State.skipIf_st (s : State) (c : Bool) : (s.skipIf c).st = s.st := rfl
@[simp] theorem State.skipIf_key (s : State) (c : Bool) : (s.skipIf c).key = s.key := rfl
@[simp] theorem State.skipIf_fb (s : State) (c : Bool) : (s.skipIf c).fb = s.fb := rfl
@[simp] theorem State.skipIf_fault (s : State) (c : Bool) : (s.skipIf c).fault = s.fault := rfl
@[simp] theorem State.skipIf_rndIndex (s : State) (c : Bool) : (s.skipIf c).rndIndex = s.rndIndex := rfl

@[simp] theorem State.takeFault_mem (s : State) (op : Option Word) (c : Cause) : (s.takeFault op c).mem = s.mem := rfl
@[simp] theorem State.takeFault_v (s : State) (op : Option Word) (c : Cause) : (s.takeFault op c).v = s.v := rfl
@[simp] theorem State.takeFault_i (s : State) (op : Option Word) (c : Cause) : (s.takeFault op c).i = s.i := rfl
@[simp] theorem State.takeFault_pc (s : State) (op : Option Word) (c : Cause) : (s.takeFault op c).pc = s.pc := rfl
@[simp] theorem State.takeFault_stack (s : State) (op : Option Word) (c : Cause) : (s.takeFault op c).stack = s.stack := rfl
@[simp] theorem State.takeFault_sp (s : State) (op : Option Word) (c : Cause) : (s.takeFault op c).sp = s.sp := rfl
@[simp] theorem State.takeFault_dt (s : State) (op : Option Word) (c : Cause) : (s.takeFault op c).dt = s.dt := rfl
@[simp] theorem State.takeFault_st (s : State) (op : Option Word) (c : Cause) : (s.takeFault op c).st = s.st := rfl
@[simp] theorem State.takeFault_key (s : State) (op : Option Word) (c : Cause) : (s.takeFault op c).key = s.key := rfl
@[simp] theorem State.takeFault_fb (s : State) (op : Option Word) (c : Cause) : (s.takeFault op c).fb = s.fb := rfl
@[simp] theorem State.takeFault_fault (s : State) (op : Option Word) (c : Cause) : (s.takeFault op c).fault = some ⟨c, s.pc, op⟩ := rfl
@[simp] theorem State.takeFault_rndIndex (s : State) (op : Option Word) (c : Cause) : (s.takeFault op c).rndIndex = s.rndIndex := rfl

@[simp] theorem State.raise_mem (s : State) (ins : Instr) (c : Cause) : (s.raise ins c).mem = s.mem := rfl
@[simp] theorem State.raise_v (s : State) (ins : Instr) (c : Cause) : (s.raise ins c).v = s.v := rfl
@[simp] theorem State.raise_i (s : State) (ins : Instr) (c : Cause) : (s.raise ins c).i = s.i := rfl
@[simp] theorem State.raise_pc (s : State) (ins : Instr) (c : Cause) : (s.raise ins c).pc = s.pc := rfl
@[simp] theorem State.raise_stack (s : State) (ins : Instr) (c : Cause) : (s.raise ins c).stack = s.stack := rfl
@[simp] theorem State.raise_sp (s : State) (ins : Instr) (c : Cause) : (s.raise ins c).sp = s.sp := rfl
@[simp] theorem State.raise_dt (s : State) (ins : Instr) (c : Cause) : (s.raise ins c).dt = s.dt := rfl
@[simp] theorem State.raise_st (s : State) (ins : Instr) (c : Cause) : (s.raise ins c).st = s.st := rfl
@[simp] theorem State.raise_key (s : State) (ins : Instr) (c : Cause) : (s.raise ins c).key = s.key := rfl
@[simp] theorem State.raise_fb (s : State) (ins : Instr) (c : Cause) : (s.raise ins c).fb = s.fb := rfl
@[simp] theorem State.raise_fault (s : State) (ins : Instr) (c : Cause) : (s.raise ins c).fault = some ⟨c, s.pc, some (encode ins)⟩ := rfl
@[simp] theorem State.raise_rndIndex (s : State) (ins : Instr) (c : Cause) : (s.raise ins c).rndIndex = s.rndIndex := rfl

@[simp] theorem State.setResultThenFlag_mem (s : State) (x : RegIdx) (r f : Byte) : (s.setResultThenFlag x r f).mem = s.mem := rfl
@[simp] theorem State.setResultThenFlag_v (s : State) (x : RegIdx) (r f : Byte) : (s.setResultThenFlag x r f).v = (s.v.set x.val r).set vF.val f := rfl
@[simp] theorem State.setResultThenFlag_i (s : State) (x : RegIdx) (r f : Byte) : (s.setResultThenFlag x r f).i = s.i := rfl
@[simp] theorem State.setResultThenFlag_pc (s : State) (x : RegIdx) (r f : Byte) : (s.setResultThenFlag x r f).pc = s.pc := rfl
@[simp] theorem State.setResultThenFlag_stack (s : State) (x : RegIdx) (r f : Byte) : (s.setResultThenFlag x r f).stack = s.stack := rfl
@[simp] theorem State.setResultThenFlag_sp (s : State) (x : RegIdx) (r f : Byte) : (s.setResultThenFlag x r f).sp = s.sp := rfl
@[simp] theorem State.setResultThenFlag_dt (s : State) (x : RegIdx) (r f : Byte) : (s.setResultThenFlag x r f).dt = s.dt := rfl
@[simp] theorem State.setResultThenFlag_st (s : State) (x : RegIdx) (r f : Byte) : (s.setResultThenFlag x r f).st = s.st := rfl
@[simp] theorem State.setResultThenFlag_key (s : State) (x : RegIdx) (r f : Byte) : (s.setResultThenFlag x r f).key = s.key := rfl
@[simp] theorem State.setResultThenFlag_fb (s : State) (x : RegIdx) (r f : Byte) : (s.setResultThenFlag x r f).fb = s.fb := rfl
@[simp] theorem State.setResultThenFlag_fault (s : State) (x : RegIdx) (r f : Byte) : (s.setResultThenFlag x r f).fault = s.fault := rfl
@[simp] theorem State.setResultThenFlag_rndIndex (s : State) (x : RegIdx) (r f : Byte) : (s.setResultThenFlag x r f).rndIndex = s.rndIndex := rfl

@[simp] theorem State.loadBlock_mem (s : State) (x : RegIdx) (a : Nat) : (s.loadBlock x a).mem = s.mem := rfl
@[simp] theorem State.loadBlock_i (s : State) (x : RegIdx) (a : Nat) : (s.loadBlock x a).i = s.i := rfl
@[simp] theorem State.loadBlock_pc (s : State) (x : RegIdx) (a : Nat) : (s.loadBlock x a).pc = s.pc := rfl
@[simp] theorem State.loadBlock_stack (s : State) (x : RegIdx) (a : Nat) : (s.loadBlock x a).stack = s.stack := rfl
@[simp] theorem State.loadBlock_sp (s : State) (x : RegIdx) (a : Nat) : (s.loadBlock x a).sp = s.sp := rfl
@[simp] theorem State.loadBlock_dt (s : State) (x : RegIdx) (a : Nat) : (s.loadBlock x a).dt = s.dt := rfl
@[simp] theorem State.loadBlock_st (s : State) (x : RegIdx) (a : Nat) : (s.loadBlock x a).st = s.st := rfl
@[simp] theorem State.loadBlock_key (s : State) (x : RegIdx) (a : Nat) : (s.loadBlock x a).key = s.key := rfl
@[simp] theorem State.loadBlock_fb (s : State) (x : RegIdx) (a : Nat) : (s.loadBlock x a).fb = s.fb := rfl
@[simp] theorem State.loadBlock_fault (s : State) (x : RegIdx) (a : Nat) : (s.loadBlock x a).fault = s.fault := rfl
@[simp] theorem State.loadBlock_rndIndex (s : State) (x : RegIdx) (a : Nat) : (s.loadBlock x a).rndIndex = s.rndIndex := rfl

@[simp] theorem State.timerTick_mem (s : State) : (s.timerTick).mem = s.mem := rfl
@[simp] theorem State.timerTick_v (s : State) : (s.timerTick).v = s.v := rfl
@[simp] theorem State.timerTick_i (s : State) : (s.timerTick).i = s.i := rfl
@[simp] theorem State.timerTick_pc (s : State) : (s.timerTick).pc = s.pc := rfl
@[simp] theorem State.timerTick_stack (s : State) : (s.timerTick).stack = s.stack := rfl
@[simp] theorem State.timerTick_sp (s : State) : (s.timerTick).sp = s.sp := rfl
@[simp] theorem State.timerTick_dt (s : State) : (s.timerTick).dt = countDown s.dt := rfl
@[simp] theorem State.timerTick_st (s : State) : (s.timerTick).st = countDown s.st := rfl
@[simp] theorem State.timerTick_key (s : State) : (s.timerTick).key = s.key := rfl
@[simp] theorem State.timerTick_fb (s : State) : (s.timerTick).fb = s.fb := rfl
@[simp] theorem State.timerTick_fault (s : State) : (s.timerTick).fault = s.fault := rfl
@[simp] theorem State.timerTick_rndIndex (s : State) : (s.timerTick).rndIndex = s.rndIndex := rfl

@[simp] theorem State.rndByte_mem (s : State) : s.rndByte.2.mem = s.mem := rfl
@[simp] theorem State.rndByte_v (s : State) : s.rndByte.2.v = s.v := rfl
@[simp] theorem State.rndByte_i (s : State) : s.rndByte.2.i = s.i := rfl
@[simp] theorem State.rndByte_pc (s : State) : s.rndByte.2.pc = s.pc := rfl
@[simp] theorem State.rndByte_stack (s : State) : s.rndByte.2.stack = s.stack := rfl
@[simp] theorem State.rndByte_sp (s : State) : s.rndByte.2.sp = s.sp := rfl
@[simp] theorem State.rndByte_dt (s : State) : s.rndByte.2.dt = s.dt := rfl
@[simp] theorem State.rndByte_st (s : State) : s.rndByte.2.st = s.st := rfl
@[simp] theorem State.rndByte_key (s : State) : s.rndByte.2.key = s.key := rfl
@[simp] theorem State.rndByte_fb (s : State) : s.rndByte.2.fb = s.fb := rfl
@[simp] theorem State.rndByte_fault (s : State) : s.rndByte.2.fault = s.fault := rfl
@[simp] theorem State.rndByte_rndIndex (s : State) : s.rndByte.2.rndIndex = s.rndIndex + 1 := rfl
@[simp] theorem State.rndByte_fst (s : State) : s.rndByte.1 = Config.rnd s.rndIndex := rfl

/-- Reading a register after writing one (10 R21: no aliases). -/
theorem State.getV_setV (s : State) (x y : RegIdx) (b : Byte) :
    (s.setV x b).getV y = if y = x then b else s.getV y := by
  simp only [State.getV, State.setV, Vector.getElem_set, Fin.ext_iff, eq_comm]

@[simp] theorem State.getV_setV_self (s : State) (x : RegIdx) (b : Byte) : (s.setV x b).getV x = b := by
  simp [State.getV_setV]

theorem State.getV_setV_ne (s : State) {x y : RegIdx} (b : Byte) (h : y ≠ x) : (s.setV x b).getV y = s.getV y := by
  simp [State.getV_setV, h]

/-- Writing back what a register holds changes nothing. -/
@[simp] theorem State.setV_getV (s : State) (x : RegIdx) : s.setV x (s.getV x) = s := by
  simp [State.setV, State.getV]

@[simp] theorem State.getV_setI (s : State) (w : Word) (r : RegIdx) : (s.setI w).getV r = s.getV r := rfl
@[simp] theorem State.getV_setPc (s : State) (w : Word) (r : RegIdx) : (s.setPc w).getV r = s.getV r := rfl
@[simp] theorem State.getV_setDt (s : State) (b : Byte) (r : RegIdx) : (s.setDt b).getV r = s.getV r := rfl
@[simp] theorem State.getV_setSt (s : State) (b : Byte) (r : RegIdx) : (s.setSt b).getV r = s.getV r := rfl
@[simp] theorem State.getV_setFb (s : State) (fb : Framebuffer) (r : RegIdx) : (s.setFb fb).getV r = s.getV r := rfl
@[simp] theorem State.getV_setMem (s : State) (m : Memory) (r : RegIdx) : (s.setMem m).getV r = s.getV r := rfl
@[simp] theorem State.getV_setKey (s : State) (k : Fin 16) (p : Bool) (r : RegIdx) : (s.setKey k p).getV r = s.getV r := rfl
@[simp] theorem State.getV_advance (s : State) (r : RegIdx) : (s.advance).getV r = s.getV r := rfl
@[simp] theorem State.getV_skipIf (s : State) (c : Bool) (r : RegIdx) : (s.skipIf c).getV r = s.getV r := rfl
@[simp] theorem State.getV_takeFault (s : State) (op : Option Word) (c : Cause) (r : RegIdx) : (s.takeFault op c).getV r = s.getV r := rfl
@[simp] theorem State.getV_raise (s : State) (ins : Instr) (c : Cause) (r : RegIdx) : (s.raise ins c).getV r = s.getV r := rfl
@[simp] theorem State.getV_timerTick (s : State) (r : RegIdx) : (s.timerTick).getV r = s.getV r := rfl
@[simp] theorem State.getV_rndByte (s : State) (r : RegIdx) : s.rndByte.2.getV r = s.getV r := rfl

/-- The register block loaded by Fx65 (46 R127). -/
theorem State.getV_loadBlock (s : State) (x r : RegIdx) (a : Nat) :
    (s.loadBlock x a).getV r = if r ≤ x then Memory.get s.mem (a + r.val) else s.getV r := by
  simp [State.getV, State.loadBlock]

/-- The flag is written second and wins when the destination is VF (10 R23). -/
theorem State.getV_setResultThenFlag (s : State) (x r : RegIdx) (b f : Byte) :
    (s.setResultThenFlag x b f).getV r = if r = vF then f else if r = x then b else s.getV r := by
  simp only [State.setResultThenFlag, State.getV_setV]

end Sys2Proof.Machine
end

