-- ==== Sys2Proof/Laws/Ops.lean ====
section
/-! SUPPORT. One lemma per shared operation: everything it can do. -/

namespace Sys2Proof.Machine

/-- `npc` is `pc + 2` modulo 65536 (00 R14). -/
theorem State.npc_toNat (s : State) : s.npc.toNat = (s.pc.toNat + 2) % 65536 := by
  simp [State.npc, BitVec.toNat_add]

/-- The zero-extended address (30 R72). -/
@[simp] theorem addrOf_toNat (nnn : Addr12) : (addrOf nnn).toNat = nnn.toNat := by
  have := nnn.isLt
  simp [addrOf]; omega

/-- A push with a free slot (10 R28). -/
theorem State.push_eq (s : State) (w : Word) (h : s.sp.val < 16) :
    s.push w = some { s with stack := s.stack.set s.sp.val w, sp := ⟨s.sp.val + 1, by omega⟩ } := by
  simp [State.push, h]

/-- A push fails exactly when sixteen slots are occupied (10 R28). -/
theorem State.push_eq_none (s : State) (w : Word) : s.push w = none ↔ s.sp.val = 16 := by
  have := s.sp.isLt
  unfold State.push
  split <;> simp <;> omega

/-- A pop of an occupied slot (10 R28). -/
theorem State.pop_eq (s : State) (h : s.sp.val ≠ 0) :
    s.pop = some (s.stack[s.sp.val - 1], { s with sp := ⟨s.sp.val - 1, by omega⟩ }) := by
  simp [State.pop, h]

/-- A pop fails exactly when the stack is empty (10 R28). -/
theorem State.pop_eq_none (s : State) : s.pop = none ↔ s.sp.val = 0 := by
  unfold State.pop
  split <;> simp [*]

/-- The bounds check passes exactly when no byte touched lies above 4095 (20 R58). -/
theorem accessFault_eq_none {kind : OobKind} {base : Word} {count : Nat} :
    accessFault kind base count = none ↔ count = 0 ∨ base.toNat + count ≤ 4096 := by
  simp only [accessFault, Config.memSize]
  split <;> simp <;> omega

/-- The bounds check fails with the lowest address out of range (20 R58, 60 R132). -/
theorem accessFault_eq_some {kind : OobKind} {base : Word} {count : Nat} {c : Cause} :
    accessFault kind base count = some c ↔
      0 < count ∧ base.toNat + count > 4096 ∧ c = .outOfBounds kind (max base.toNat 4096) := by
  simp only [accessFault, Config.memSize]
  split <;> simp_all [eq_comm]

/-- The key index of a value above 15 (45 R117). -/
theorem keyIndex_eq_none {b : Byte} : keyIndex b = none ↔ b.toNat > 15 := by
  unfold keyIndex
  split
  · simp; omega
  · simp; omega

/-- The key index of a value of at most 15 (45 R117). -/
theorem keyIndex_eq_some {b : Byte} {k : Fin 16} : keyIndex b = some k ↔ b.toNat = k.val := by
  have := k.isLt
  unfold keyIndex
  split <;> simp [Fin.ext_iff] <;> omega

/-- The least pressed key (46 R120). -/
theorem leastKey_eq_some {key : Vector Bool 16} {k : Fin 16} :
    leastKey key = some k ↔ key[k.val] = true ∧ ∀ j : Fin 16, j < k → key[j.val] = false := by
  have hs : (List.finRange 16).Pairwise (· < ·) := by decide
  unfold leastKey
  rw [List.find?_eq_some_iff_append]
  constructor
  · rintro ⟨h1, as, bs, h2, h3⟩
    refine ⟨h1, fun j hj => ?_⟩
    have hm : j ∈ as ++ k :: bs := h2 ▸ List.mem_finRange j
    rw [h2, List.pairwise_append, List.pairwise_cons] at hs
    rcases List.mem_append.mp hm with h | h
    · simpa using h3 j h
    · rcases List.mem_cons.mp h with rfl | h
      · exact absurd hj (lt_irrefl _)
      · exact absurd (hs.2.1.1 j h) (by omega)
  · rintro ⟨h1, h2⟩
    obtain ⟨as, bs, h3⟩ := List.append_of_mem (List.mem_finRange k)
    refine ⟨h1, as, bs, h3, fun j hj => ?_⟩
    rw [h3, List.pairwise_append] at hs
    simpa using h2 j (hs.2.2 j hj k (by simp))

/-- No key is pressed (46 R120). -/
theorem leastKey_eq_none {key : Vector Bool 16} : leastKey key = none ↔ ∀ k : Fin 16, key[k.val] = false := by
  simp [leastKey, List.find?_eq_none]

/-- The registers Fx55 stores (46 R126). -/
theorem State.regBlock_length (s : State) (x : RegIdx) : (s.regBlock x).length = x.val + 1 := by
  simp [State.regBlock]

theorem State.regBlock_getD (s : State) (x r : RegIdx) (h : r ≤ x) : (s.regBlock x).getD r.val 0 = s.getV r := by
  have h' : r.val < (s.regBlock x).length := by rw [State.regBlock_length]; exact Nat.lt_succ_of_le h
  rw [List.getD_eq_getElem _ _ h']
  simp [State.regBlock, State.getV]

/-- A byte of memory after Fx55's stores (46 R126). -/
theorem State.get_store_regBlock (s : State) (x : RegIdx) (a k : Nat) :
    Memory.get (Memory.setBytes s.mem a (s.regBlock x)) k =
      if h : a ≤ k ∧ k ≤ a + x.val then s.getV ⟨k - a, by omega⟩ else Memory.get s.mem k := by
  rw [Memory.get_setBytes, State.regBlock_length]
  split
  · next h =>
    rw [dif_pos (by omega)]
    exact State.regBlock_getD s x ⟨k - a, by omega⟩ (by simp only [Fin.le_def]; omega)
  · rw [dif_neg (by omega)]

/-- A shift with SHIFT_SRC = VX (42 R106, R108): for x = 0xF the flag just written is what is shifted (10 R23). -/
theorem State.getV_shift_vx (s : State) (flag result : Byte → Byte) (x y r : RegIdx) :
    (s.shift .vx flag result x y).getV r =
      if r = x then result (if x = vF then flag (s.getV x) else s.getV x)
      else if r = vF then flag (s.getV x) else s.getV r := by
  simp only [State.shift, State.getV_setV]

/-- A shift changes registers only. -/
theorem State.shift_eq (s : State) (src : ShiftSrc) (flag result : Byte → Byte) (x y : RegIdx) :
    ∃ v, s.shift src flag result x y = { s with v := v } := by
  cases src
  · exact ⟨_, rfl⟩
  · by_cases h : x = vF
    · exact ⟨_, by simp only [State.shift, if_pos h]; rfl⟩
    · exact ⟨_, by simp only [State.shift, if_neg h]; rfl⟩

/-- A fetch succeeds exactly when `pc <= 4094` (20 R55). -/
theorem State.fetch_eq_none {s : State} : s.fetch = none ↔ s.pc.toNat > 4094 := by
  unfold State.fetch
  split <;> simp <;> omega

theorem State.fetch_eq {s : State} (h : s.pc.toNat ≤ 4094) :
    s.fetch = some (wordOfBytes (Memory.get s.mem s.pc.toNat) (Memory.get s.mem (s.pc.toNat + 1))) := by
  unfold State.fetch
  rw [if_neg (by omega)]

/-- A state changed in registers, PC, framebuffer and memory only at addresses it is not read from fetches the same word. -/
theorem State.fetch_congr {s t : State} (hp : t.pc = s.pc) (hm : ∀ a, Memory.get t.mem a = Memory.get s.mem a) :
    t.fetch = s.fetch := by
  simp [State.fetch, hp, hm]

/-- A placed word is what the next fetch gives (log entry 10). -/
theorem State.fetch_placeWord (s : State) (op : Word) : (s.placeWord op).fetch = some op := by
  have key : ∀ (m : Memory) (a : Nat),
      wordOfBytes (Memory.get (Memory.setBytes m a (bytesOfWord op)) a)
        (Memory.get (Memory.setBytes m a (bytesOfWord op)) (a + 1)) = op := by
    intro m a
    rw [Memory.get_setBytes, Memory.get_setBytes, if_pos ⟨le_refl _, by simp [bytesOfWord]⟩,
      if_pos ⟨by omega, by simp [bytesOfWord]⟩]
    simpa [bytesOfWord] using wordOfBytes_bytes op
  unfold State.placeWord
  split
  · exact (State.fetch_eq (by decide : (0x0200 : Word).toNat ≤ 4094)).trans (congrArg some (key s.mem 512))
  · next h =>
    refine (State.fetch_eq ?_).trans (congrArg some (key s.mem s.pc.toNat))
    simp only; omega

@[simp] theorem State.fault_placeWord (s : State) (op : Word) : (s.placeWord op).fault = none := rfl

end Sys2Proof.Machine
end

