-- ==== Sys2Proof/Laws/Step.lean ====
section
/-! SUPPORT. What a step can do, said once (60 R135, R148). -/

namespace Sys2Proof.Machine

/-- The step of an unfaulted core whose fetch and decode succeed is the instruction's own. -/
theorem step_exec {s : State} {op : Word} {i : Instr} (hf : s.fault = none) (hop : s.fetch = some op)
    (hi : decodeWord op = some i) : step s = exec i s := by
  simp [step, hf, hop, hi]

/-- A faulted core's step does nothing (60 R134). -/
theorem step_faulted {s : State} {r : FaultRecord} (hf : s.fault = some r) : step s = .next s := by
  simp [step, hf]

/-- A fetch outside memory (20 R55). -/
theorem step_fetchFault {s : State} (hf : s.fault = none) (hop : s.fetch = none) : step s = .next s.fetchFault := by
  simp [step, hf, hop]

/-- A word that matches no row (30 R77). -/
theorem step_unknownOpcode {s : State} {op : Word} (hf : s.fault = none) (hop : s.fetch = some op)
    (hi : decodeWord op = none) : step s = .next (s.unknownOpcode op) := by
  simp [step, hf, hop, hi]

/-- Everything a step can do: nothing while faulted, a fetch fault, an unknown opcode, or the decoded instruction. -/
theorem step_cases {s t : State} (h : step s = .next t) :
    (s.fault ≠ none ∧ t = s) ∨
    (s.fault = none ∧ s.pc.toNat > 4094 ∧ t = s.fetchFault) ∨
    (∃ op, s.fault = none ∧ s.pc.toNat ≤ 4094 ∧ s.fetch = some op ∧ decodeWord op = none ∧ t = s.unknownOpcode op) ∨
    (∃ op i, s.fault = none ∧ s.pc.toNat ≤ 4094 ∧ s.fetch = some op ∧ decodeWord op = some i ∧ exec i s = .next t) := by
  cases hf : s.fault with
  | some r =>
    rw [step_faulted hf] at h
    injection h with h
    exact .inl ⟨by simp, h.symm⟩
  | none =>
    simp only [step, hf] at h
    cases hop : s.fetch with
    | none =>
      simp only [hop] at h
      injection h with h
      exact .inr (.inl ⟨rfl, State.fetch_eq_none.mp hop, h.symm⟩)
    | some op =>
      have hp : s.pc.toNat ≤ 4094 := by
        by_contra hp
        rw [State.fetch_eq_none.mpr (by omega)] at hop
        cases hop
      simp only [hop] at h
      cases hi : decodeWord op with
      | none =>
        simp only [hi] at h
        injection h with h
        exact .inr (.inr (.inl ⟨op, rfl, hp, rfl, hi, h.symm⟩))
      | some i =>
        simp only [hi] at h
        exact .inr (.inr (.inr ⟨op, i, rfl, hp, rfl, hi, h⟩))

/-- A placed word is the instruction the next step runs (log entry 10). -/
theorem step_withFetchWord (s : State) (nbits w : Nat) {i : Instr} (h : decodeWord (tableWord nbits w) = some i) :
    step (s.withFetchWord nbits w) = exec i (s.withFetchWord nbits w) :=
  step_exec (State.fault_placeWord s _) (State.fetch_placeWord s _) h

end Sys2Proof.Machine
end

