-- ==== Sys2Proof/Laws/Frame.lean ====
section
/-! SUPPORT. Frames and faults: how a frame is shown, what raising a fault leaves, and one more step of a run. -/

namespace Sys2Proof.Machine

/-- A frame from its parts: the registers, the bytes of memory, and the rest field by field. -/
theorem Unchanged.of {changed : List Part} {s t : State} (hr : ∀ r, Part.reg r ∉ changed → t.getV r = s.getV r)
    (hb : ∀ a, Part.byte a ∉ changed → Memory.get t.mem a = Memory.get s.mem a)
    (h : (.i ∉ changed → t.i = s.i) ∧ (.slots ∉ changed → t.stack = s.stack) ∧ (.sp ∉ changed → t.sp = s.sp) ∧
      (.dt ∉ changed → t.dt = s.dt) ∧ (.st ∉ changed → t.st = s.st) ∧ (.keys ∉ changed → t.key = s.key) ∧
      (.cells ∉ changed → t.fb = s.fb) ∧ (.latch ∉ changed → t.fault = s.fault) ∧
      (.rnd ∉ changed → t.rndIndex = s.rndIndex)) : Unchanged changed s t :=
  ⟨hr, h.1, h.2.1, h.2.2.1, h.2.2.2.1, h.2.2.2.2.1, h.2.2.2.2.2.1, h.2.2.2.2.2.2.1, h.2.2.2.2.2.2.2.1,
    h.2.2.2.2.2.2.2.2, hb⟩

/-- Which bytes `bytesFrom` lists. -/
theorem mem_bytesFrom {a count k : Nat} : Part.byte k ∈ bytesFrom a count ↔ a ≤ k ∧ k < a + count := by
  simp only [bytesFrom, List.mem_map, List.mem_range, Part.byte.injEq]
  constructor
  · rintro ⟨r, h, rfl⟩; omega
  · rintro ⟨h1, h2⟩; exact ⟨k - a, by omega, by omega⟩

/-- Raising a fault in an instruction writes the record and nothing else (60 R133). -/
theorem State.raise_eq (s : State) (instr : Instr) (c : Cause) :
    s.raise instr c = { s with fault := some (recordOf s instr c) } := rfl

/-- Taking a fault keeps the invariant. -/
theorem State.Inv.takeFault {s : State} (h : s.Inv) (opcode : Option Word) (c : Cause) : (s.takeFault opcode c).Inv :=
  ⟨h.mem_wf, h.pc_le, h.slots_le, by rintro r hr; cases hr; rfl⟩

/-- A range that lies in memory passes the bounds check (20 R58). -/
theorem accessFault_inside {kind : OobKind} {base : Word} {count : Nat} (h : base.toNat + count ≤ 4096) :
    accessFault kind base count = none :=
  accessFault_eq_none.mpr (.inr h)

/-- A range that does not fails it, with the lowest address out of range (20 R58). -/
theorem accessFault_outside {kind : OobKind} {base : Word} {count : Nat} (h : base.toNat + count > 4096)
    (h0 : 0 < count) : accessFault kind base count = some (.outOfBounds kind (max base.toNat 4096)) :=
  accessFault_eq_some.mpr ⟨h0, h, rfl⟩

/-- A skip on a key's state with an index of at most 15 (45 R117, R118). -/
theorem State.skipOnKey_of_index {s : State} {x : RegIdx} {k : Fin 16} (h : (s.getV x).toNat = k.val) (instr : Instr)
    (want : Bool) : s.skipOnKey instr x want = s.skipIf (s.key[k.val] == want) := by
  simp only [State.skipOnKey, keyIndex_eq_some.mpr h]

/-- A skip on a key's state with an index above 15 (45 R117, R118). -/
theorem State.skipOnKey_of_large {s : State} {x : RegIdx} (h : (s.getV x).toNat > 15) (instr : Instr) (want : Bool) :
    s.skipOnKey instr x want = s.raise instr (keyFault (s.getV x)) := by
  simp only [State.skipOnKey, keyIndex_eq_none.mpr h]

/-- One more step of a run, taken first. -/
theorem run_succ {s t : State} (k : Nat) (h : step s = .next t) : core.run (k + 1) s = core.run k t := by
  have h' : core.step s = .next t := h
  simp only [Host.Core.run, h']

end Sys2Proof.Machine
end

