-- ==== Sys2Proof/Laws/Draw.lean ====
section
/-! SUPPORT. The draw over the whole state (44 R114), in the terms of `SpriteCovers`. -/

namespace Sys2Proof.Machine

/-- The compositor's covered cells are those `SpriteCovers` names. -/
theorem covered_iff_spriteCovers {s : State} {x y : RegIdx} {rows : Nat} {xx : Fin 64} {yy : Fin 32} :
    Covered (s.getV x) (s.getV y) (Memory.getBytes s.mem s.i.toNat rows) xx yy ↔ SpriteCovers s x y rows xx yy := by
  simp only [Covered, SpriteCovers, Memory.getElem_getBytes, Memory.length_getBytes, wrapX, wrapY, Fin.ofNat, Fin.ext_iff,
    exists_prop]
  refine exists_congr fun r => exists_congr fun c => and_congr_right fun _ => and_congr_right fun _ => ?_
  rw [eq_comm, eq_comm (a := yy.val)]

/-- Everything a draw does to the framebuffer and to VF (44 R114). -/
theorem State.drawAt_spec (s : State) (x y : RegIdx) (rows : Nat) (h : rows ≤ 32) :
    (∀ xx yy, SpriteCovers s x y rows xx yy →
        Framebuffer.cell (s.drawAt x y rows).fb xx yy = !Framebuffer.cell s.fb xx yy) ∧
      (∀ xx yy, ¬ SpriteCovers s x y rows xx yy →
        Framebuffer.cell (s.drawAt x y rows).fb xx yy = Framebuffer.cell s.fb xx yy) ∧
      ((∃ xx yy, SpriteCovers s x y rows xx yy ∧ Framebuffer.cell s.fb xx yy = true) → (s.drawAt x y rows).getV vF = 1) ∧
      ((∀ xx yy, SpriteCovers s x y rows xx yy → Framebuffer.cell s.fb xx yy = false) → (s.drawAt x y rows).getV vF = 0) := by
  obtain ⟨a, b, c⟩ := drawSprite_spec (s.getV x) (s.getV y) (Memory.getBytes s.mem s.i.toNat rows) s.fb (by simpa using h)
  simp only [covered_iff_spriteCovers] at a b c
  refine ⟨a, b, fun h => ?_, fun h => ?_⟩
  · simp [State.drawAt, c.mpr h, flagOf]
  · have : (drawSprite (s.getV x) (s.getV y) (Memory.getBytes s.mem s.i.toNat rows) s.fb).2 = false := by
      rw [Bool.eq_false_iff]
      intro hc
      obtain ⟨xx, yy, h1, h2⟩ := c.mp hc
      rw [h xx yy h1] at h2; cases h2
    simp [State.drawAt, this, flagOf]

/-- A draw changes the framebuffer and VF only (44 R114). -/
theorem State.drawAt_eq (s : State) (x y : RegIdx) (rows : Nat) :
    ∃ fb b, s.drawAt x y rows = (s.setFb fb).setV vF b := ⟨_, _, rfl⟩

/-- Dxyn with its rows in memory (44 R114). -/
theorem exec_drw {s : State} (x y : RegIdx) {n : Fin 16} (h : s.i.toNat + n.val ≤ 4095) :
    exec (.drw x y n) s = .next (s.drawAt x y (n.val + 1)).advance := by
  simp [exec, execDrw, State.draw, Params.drawRows, drawRowCount, accessFault_inside (show s.i.toNat + (n.val + 1) ≤ 4096 by omega)]

end Sys2Proof.Machine
end

