-- ==== Sys2Proof/Laws/Events.lean ====
section
/-! SUPPORT. Power-on with any FONT (70 R160, 00 R9): what memory holds, and that it is canonical. -/

namespace Sys2Proof.Machine

/-- Memory at power-on (10 R38): FONT from address 0 up, and zero above it. -/
theorem Memory.get_powerOn (font : Font) (a : Nat) :
    Memory.get (State.powerOn font).mem a = if h : a < 80 then font[a] else 0 := by
  simp only [State.powerOn, Memory.get_setBytes, Vector.length_toList, Nat.zero_le, true_and, Nat.zero_add, Nat.sub_zero,
    Config.fontBytes]
  by_cases h : a < 80
  · rw [if_pos h, dif_pos h, List.getD_eq_getElem _ _ (by simpa using h)]
    simp
  · rw [if_neg h, dif_neg h, Memory.get_reset]
    exact List.getD_eq_default _ _ (Nat.le_of_not_lt h)

/-- Memory at power-on has the canonical form, whatever FONT is. -/
theorem Memory.wf_powerOn (font : Font) : Memory.wf (State.powerOn font).mem = true :=
  Memory.wf_setBytes Memory.wf_reset (by simp [Config.memSize, Config.fontBytes])

/-- `State.reset` is the power-on state with the default FONT. -/
theorem State.powerOn_default : State.powerOn Params.font = State.reset := by
  have h : Memory.setBytes State.reset.mem 0 Params.font.toList = State.reset.mem := by decide +kernel
  simp only [State.powerOn, h]

/-- So the host's machine is that of the default FONT. -/
theorem coreWithFont_default : coreWithFont Params.font = core := by
  have h := State.powerOn_default
  simp only [coreWithFont, h]
  rfl

end Sys2Proof.Machine
end

