-- ==== Sys2Proof/Laws/PerInstr.lean ====
section
/-! SUPPORT. What holds of every instruction as syntax, one lemma per constructor: its word matches the row of the opcode map that
stands for it (30 R76). -/

namespace Sys2Proof.Laws.MatchesRow

/-- The word of the instruction selects the instruction's own row. -/
def Statement (i : Instr) : Prop := i.row.selects (encode i) = true

/-- A word selects a row when masking it gives the row's pattern. -/
theorem of_mask {i : Instr} (h : encode i &&& i.row.mask = i.row.pattern) : Statement i := by
  simp [Statement, OpcodeRow.selects, h]

theorem nop : Statement .nop := rfl

theorem cls : Statement .cls := rfl

theorem ret : Statement .ret := rfl

theorem jp (nnn : Addr12) : Statement (.jp nnn) := of_mask (wordNNN_mask _ _)

theorem call (nnn : Addr12) : Statement (.call nnn) := of_mask (wordNNN_mask _ _)

theorem seByte (x : RegIdx) (kk : Byte) : Statement (.seByte x kk) := of_mask (wordXKK_mask _ _ _)

theorem sneByte (x : RegIdx) (kk : Byte) : Statement (.sneByte x kk) := of_mask (wordXKK_mask _ _ _)

theorem seReg (x y : RegIdx) : Statement (.seReg x y) := of_mask (wordXY_mask _ _ _ _)

theorem ldByte (x : RegIdx) (kk : Byte) : Statement (.ldByte x kk) := of_mask (wordXKK_mask _ _ _)

theorem addByte (x : RegIdx) (kk : Byte) : Statement (.addByte x kk) := of_mask (wordXKK_mask _ _ _)

theorem ldReg (x y : RegIdx) : Statement (.ldReg x y) := of_mask (wordXY_mask _ _ _ _)

theorem orReg (x y : RegIdx) : Statement (.orReg x y) := of_mask (wordXY_mask _ _ _ _)

theorem andReg (x y : RegIdx) : Statement (.andReg x y) := of_mask (wordXY_mask _ _ _ _)

theorem xorReg (x y : RegIdx) : Statement (.xorReg x y) := of_mask (wordXY_mask _ _ _ _)

theorem addReg (x y : RegIdx) : Statement (.addReg x y) := of_mask (wordXY_mask _ _ _ _)

theorem subReg (x y : RegIdx) : Statement (.subReg x y) := of_mask (wordXY_mask _ _ _ _)

theorem shr (x y : RegIdx) : Statement (.shr x y) := of_mask (wordXY_mask _ _ _ _)

theorem subnReg (x y : RegIdx) : Statement (.subnReg x y) := of_mask (wordXY_mask _ _ _ _)

theorem shl (x y : RegIdx) : Statement (.shl x y) := of_mask (wordXY_mask _ _ _ _)

theorem sneReg (x y : RegIdx) : Statement (.sneReg x y) := of_mask (wordXY_mask _ _ _ _)

theorem ldI (nnn : Addr12) : Statement (.ldI nnn) := of_mask (wordNNN_mask _ _)

theorem jpV0 (nnn : Addr12) : Statement (.jpV0 nnn) := of_mask (wordNNN_mask _ _)

theorem rnd (x : RegIdx) (kk : Byte) : Statement (.rnd x kk) := of_mask (wordXKK_mask _ _ _)

theorem drw (x y : RegIdx) (n : Fin 16) : Statement (.drw x y n) := of_mask (wordXYN_mask _ _ _ _)

theorem skp (x : RegIdx) : Statement (.skp x) := of_mask (wordX_mask _ _ _)

theorem sknp (x : RegIdx) : Statement (.sknp x) := of_mask (wordX_mask _ _ _)

theorem ldVxDt (x : RegIdx) : Statement (.ldVxDt x) := of_mask (wordX_mask _ _ _)

theorem ldVxKey (x : RegIdx) : Statement (.ldVxKey x) := of_mask (wordX_mask _ _ _)

theorem ldDtVx (x : RegIdx) : Statement (.ldDtVx x) := of_mask (wordX_mask _ _ _)

theorem ldStVx (x : RegIdx) : Statement (.ldStVx x) := of_mask (wordX_mask _ _ _)

theorem addI (x : RegIdx) : Statement (.addI x) := of_mask (wordX_mask _ _ _)

theorem ldFont (x : RegIdx) : Statement (.ldFont x) := of_mask (wordX_mask _ _ _)

theorem ldBcd (x : RegIdx) : Statement (.ldBcd x) := of_mask (wordX_mask _ _ _)

theorem storeRegs (x : RegIdx) : Statement (.storeRegs x) := of_mask (wordX_mask _ _ _)

theorem loadRegs (x : RegIdx) : Statement (.loadRegs x) := of_mask (wordX_mask _ _ _)

end Sys2Proof.Laws.MatchesRow
end

