-- ==== Sys2Proof/Laws/WellFormed.lean ====
section
/-! SUPPORT. Every instruction is well formed: the operand types admit exactly what the fields hold (30 R72). -/

namespace Sys2Proof

theorem fieldFits_nibble (x : Fin 16) : fieldFits 4 x.val = true := by simp [fieldFits]

theorem fieldFits_byte (b : Byte) : fieldFits 8 b.toNat = true := by simpa [fieldFits] using b.isLt

theorem fieldFits_addr (a : Addr12) : fieldFits 12 a.toNat = true := by simpa [fieldFits] using a.isLt

/-- No ill-formed instruction can be written. -/
theorem Instr.wellFormed_eq_true (i : Instr) : i.wellFormed = true := by
  cases i <;>
    simp [Instr.wellFormed, Instr.fields, fieldFits_nibble, fieldFits_byte, fieldFits_addr]

/-- The row of an instruction is a row of the map. -/
theorem Instr.row_mem (i : Instr) : i.row ∈ opcodeMap := by
  cases i <;> simp [opcodeMap, Instr.samples, Instr.row]

end Sys2Proof
end

