-- ==== Sys2Proof/Machine/Assembly.lean ====
section
/-! DEFINITION. The assembler notation of 30 R80, a label only: "the opcode word is always given beside them and is what counts". -/

namespace Sys2Proof.Machine

/-- One hexadecimal digit, in capitals. -/
def hexDigit (d : Nat) : String := String.singleton ("0123456789ABCDEF".toList.getD d '?')

/-- A number as `0x` and `digits` hexadecimal digits (R80). -/
def hexNumber (digits value : Nat) : String :=
  "0x" ++ String.join ((List.range digits).reverse.map fun k => hexDigit (value / 16 ^ k % 16))

/-- `V0` to `VF`. -/
def regName (x : RegIdx) : String := "V" ++ hexDigit x.val

/-- The instruction in the notation of R80, operands separated by commas. -/
def assembly : Instr → String
  | .nop => "NOP"
  | .cls => "CLS"
  | .ret => "RET"
  | .jp nnn => "JP " ++ hexNumber 3 nnn.toNat
  | .call nnn => "CALL " ++ hexNumber 3 nnn.toNat
  | .seByte x kk => "SE " ++ regName x ++ ", " ++ hexNumber 2 kk.toNat
  | .sneByte x kk => "SNE " ++ regName x ++ ", " ++ hexNumber 2 kk.toNat
  | .seReg x y => "SE " ++ regName x ++ ", " ++ regName y
  | .ldByte x kk => "LD " ++ regName x ++ ", " ++ hexNumber 2 kk.toNat
  | .addByte x kk => "ADD " ++ regName x ++ ", " ++ hexNumber 2 kk.toNat
  | .ldReg x y => "LD " ++ regName x ++ ", " ++ regName y
  | .orReg x y => "OR " ++ regName x ++ ", " ++ regName y
  | .andReg x y => "AND " ++ regName x ++ ", " ++ regName y
  | .xorReg x y => "XOR " ++ regName x ++ ", " ++ regName y
  | .addReg x y => "ADD " ++ regName x ++ ", " ++ regName y
  | .subReg x y => "SUB " ++ regName x ++ ", " ++ regName y
  | .shr x _ => "SHR " ++ regName x
  | .subnReg x y => "SUBN " ++ regName x ++ ", " ++ regName y
  | .shl x _ => "SHL " ++ regName x
  | .sneReg x y => "SNE " ++ regName x ++ ", " ++ regName y
  | .ldI nnn => "LD I, " ++ hexNumber 3 nnn.toNat
  | .jpV0 nnn => "JP V0, " ++ hexNumber 3 nnn.toNat
  | .rnd x kk => "RND " ++ regName x ++ ", " ++ hexNumber 2 kk.toNat
  | .drw x y n => "DRW " ++ regName x ++ ", " ++ regName y ++ ", " ++ hexNumber 1 n.val
  | .skp x => "SKP " ++ regName x
  | .sknp x => "SKNP " ++ regName x
  | .ldVxDt x => "LD " ++ regName x ++ ", DT"
  | .ldVxKey x => "LD " ++ regName x ++ ", K"
  | .ldDtVx x => "LD DT, " ++ regName x
  | .ldStVx x => "LD ST, " ++ regName x
  | .addI x => "ADD I, " ++ regName x
  | .ldFont x => "LD F, " ++ regName x
  | .ldBcd x => "LD B, " ++ regName x
  | .storeRegs x => "LD [I], " ++ regName x
  | .loadRegs x => "LD " ++ regName x ++ ", [I]"

end Sys2Proof.Machine
end

