-- ==== Sys2Proof/Tests/Slice0.lean ====
section
/-! SUPPORT. Our own tests. Every expected result is taken from the spec: the encodings of 30 R71 and R76, the vectors of
95_test_vectors.md (S for its part 1, the section number for its part 2) and the examples of the rules. Then one witness for each
statement that has hypotheses: a concrete state and operands that meet them all. -/

namespace Sys2Proof.Machine.Tests

/-! The checks of WellFormed refuse what is ill formed. -/

/-- 30 R72: a nibble holds 0 to 15, kk 0 to 255, nnn 0 to 0xFFF. -/
theorem test_field_ranges :
    fieldFits 4 15 = true ∧ fieldFits 4 16 = false ∧ fieldFits 8 255 = true ∧ fieldFits 8 256 = false ∧
    fieldFits 12 0xFFF = true ∧ fieldFits 12 0x1000 = false := by decide

/-- 30 R77: one illegal word of each class is refused, by the map and by the decoder. -/
theorem test_illegal_words :
    [0x0123, 0x5121, 0x8128, 0x812F, 0x9121, 0xE19F, 0xE1F1, 0xF000, 0xF308].all
      (fun op : Word => !legalWord op && decodeWord op == none) = true := by decide

/-- 70 R163, R164: 3584 bytes fit, 3585 do not. -/
theorem test_image_size :
    imageFits (List.replicate 3584 0) = true ∧ imageFits (List.replicate 3585 0) = false := by decide +kernel

/-! Decoding: the word of every instruction, written out bit by bit from R71 and R76. -/

theorem test_decode_0 :
    decodeWord 0b0000000000000000 = some .nop ∧ decodeWord 0b0000000011100000 = some .cls ∧
    decodeWord 0b0000000011101110 = some .ret := by decide

theorem test_decode_1_2 :
    decodeWord 0b0001101010111100 = some (.jp 0xABC) ∧ decodeWord 0b0010001100000001 = some (.call 0x301) := by decide

theorem test_decode_3_to_7 :
    decodeWord 0b0011001101000010 = some (.seByte 3 0x42) ∧ decodeWord 0b0100001101000011 = some (.sneByte 3 0x43) ∧
    decodeWord 0b0101000100100000 = some (.seReg 1 2) ∧ decodeWord 0b0110101011111110 = some (.ldByte 10 0xFE) ∧
    decodeWord 0b0111001100000001 = some (.addByte 3 0x01) := by decide

theorem test_decode_8 :
    decodeWord 0b1000000100100000 = some (.ldReg 1 2) ∧ decodeWord 0b1000000100100001 = some (.orReg 1 2) ∧
    decodeWord 0b1000000100100010 = some (.andReg 1 2) ∧ decodeWord 0b1000000100100011 = some (.xorReg 1 2) ∧
    decodeWord 0b1000000111110100 = some (.addReg 1 15) ∧ decodeWord 0b1000111100100101 = some (.subReg 15 2) ∧
    decodeWord 0b1000000100100110 = some (.shr 1 2) ∧ decodeWord 0b1000000100100111 = some (.subnReg 1 2) ∧
    decodeWord 0b1000000100101110 = some (.shl 1 2) := by decide

theorem test_decode_9_to_D :
    decodeWord 0b1001000100100000 = some (.sneReg 1 2) ∧ decodeWord 0b1010000100100011 = some (.ldI 0x123) ∧
    decodeWord 0b1011111111111111 = some (.jpV0 0xFFF) ∧ decodeWord 0b1100001100001111 = some (.rnd 3 0x0F) ∧
    decodeWord 0b1101000000010100 = some (.drw 0 1 4) := by decide

theorem test_decode_E :
    decodeWord 0b1110000110011110 = some (.skp 1) ∧ decodeWord 0b1110000110100001 = some (.sknp 1) := by decide

theorem test_decode_F :
    decodeWord 0b1111001100000111 = some (.ldVxDt 3) ∧ decodeWord 0b1111001100001010 = some (.ldVxKey 3) ∧
    decodeWord 0b1111001100010101 = some (.ldDtVx 3) ∧ decodeWord 0b1111001100011000 = some (.ldStVx 3) ∧
    decodeWord 0b1111001100011110 = some (.addI 3) ∧ decodeWord 0b1111001100101001 = some (.ldFont 3) ∧
    decodeWord 0b1111001100110011 = some (.ldBcd 3) ∧ decodeWord 0b1111001001010101 = some (.storeRegs 2) ∧
    decodeWord 0b1111001001100101 = some (.loadRegs 2) := by decide

/-- 20 R54: the byte at the lower address is the high byte; one byte alone is no word. -/
theorem test_decode_bytes :
    decodeBytes [0x6A, 0x55, 0x77] = .instr (.ldByte 10 0x55) [0x77] ∧ decodeBytes [0x51, 0x21] = .unknownOpcode 0x5121 ∧
    decodeBytes [0x6A] = .truncated := by decide

/-- The table numbers the bits of the word from its least significant one. -/
theorem test_decode_table_word :
    decodeTableWord 16 0x6A55 = some (.ldByte 10 0x55) ∧ decodeTableWord 16 0x00EE = some .ret ∧
    decodeTableWord 16 0xE19F = none := by decide

/-- 95 part 3, program 1: the source's image. -/
theorem test_image :
    imageOf [.ldByte 0 5, .ldByte 1 3, .addReg 0 1] = [0x60, 0x05, 0x61, 0x03, 0x80, 0x14] := by decide

/-- 30 R80: the notation of the source's own example and of the special operands. -/
theorem test_assembly :
    assembly (.addReg 0 1) = "ADD V0, V1" ∧ assembly (.drw 13 14 5) = "DRW VD, VE, 0x5" ∧
    assembly (.storeRegs 1) = "LD [I], V1" ∧ assembly (.ldI 0x20C) = "LD I, 0x20C" := by decide

/-! One step. -/

/-- The power-on state changed by `before`, with the word where the next step fetches (the conventions of 95). -/
def start (op : Word) (before : State → State := id) : State := (before State.reset).withFetchWord 16 op.toNat

/-- The state one step leads to. -/
def next (s : State) : Option State :=
  match step s with
  | .next t => some t
  | .fault f => nomatch f
  | .refused _ => none

/-- One step on the word, from the power-on state changed by `before`. -/
def after (op : Word) (before : State → State := id) : Option State := next (start op before)

/-- PC and one register after the step. -/
def pcAnd (t : Option State) (x : RegIdx) : Option (Word × Byte) := t.map fun t => (t.pc, t.getV x)

/-- Vx and VF after the step. -/
def regAndFlag (t : Option State) (x : RegIdx) : Option (Byte × Byte) := t.map fun t => (t.getV x, t.getV vF)

/-- The fault record and PC after the step. -/
def faultOf (t : Option State) : Option (Option FaultRecord × Word) := t.map fun t => (t.fault, t.pc)

/-- Two registers set. -/
def regs (x : RegIdx) (a : Byte) (y : RegIdx) (b : Byte) (s : State) : State := (s.setV x a).setV y b

/-- The stack with `sp` occupied slots, the top one holding `w`. -/
def stacked (sp : Fin 17) (top : Fin 16) (w : Word) (s : State) : State := { s with sp := sp, stack := s.stack.set top.val w }

/-- Bytes in memory from `a` on, and I there. -/
def dataAt (a : Word) (bytes : List Byte) (s : State) : State :=
  { s with mem := Memory.setBytes s.mem a.toNat bytes, i := a }

/-- 2.1. -/
theorem test_nop : pcAnd (after 0x0000) 0 = some (0x0202, 0) := by decide

/-- 2.1: 00E0 with cells set and VF = 1. -/
theorem test_cls :
    (after 0x00E0 fun s => (s.setFb (Framebuffer.toggle s.fb 63 31)).setV vF 1).map
      (fun t => (Framebuffer.cell t.fb 63 31, t.getV vF, t.pc)) = some (false, 1, 0x0202) := by decide +kernel

/-- 2.1: the sixteenth slot is popped; an empty stack underflows. -/
theorem test_ret :
    (after 0x00EE (stacked 16 15 0x0ABC)).map (fun t => (t.pc, t.sp)) = some (0x0ABC, 15) ∧
    faultOf (after 0x00EE) = some (some ⟨.stackUnderflow, 0x0200, some 0x00EE⟩, 0x0200) := by decide

/-- 2.1: an odd target. -/
theorem test_jp : pcAnd (after 0x1201) 0 = some (0x0201, 0) := by decide

/-- 2.1: a push at SP = 15, at pc = 0xFFE, and an overflow. -/
theorem test_call :
    (after 0x2300 (stacked 15 0 0)).map (fun t => (t.pc, t.sp, t.stack[15])) = some (0x0300, 16, 0x0202) ∧
    (after 0x2FFF (fun s => s.setPc 0x0FFE)).map (fun t => (t.pc, t.stack[0])) = some (0x0FFF, 0x1000) ∧
    faultOf (after 0x2300 (stacked 16 0 0)) = some (some ⟨.stackOverflow, 0x0200, some 0x2300⟩, 0x0200) := by decide

/-- 2.2, S3. -/
theorem test_se_byte :
    pcAnd (after 0x3342 (State.setV · 3 0x42)) 3 = some (0x0204, 0x42) ∧
    pcAnd (after 0x3343 (State.setV · 3 0x42)) 3 = some (0x0202, 0x42) ∧
    pcAnd (after 0x3342 fun s => (s.setV 3 0x42).setPc 0x0FFE) 3 = some (0x1002, 0x42) := by decide

/-- 2.2. -/
theorem test_sne_byte :
    pcAnd (after 0x4342 (State.setV · 3 0x42)) 3 = some (0x0202, 0x42) ∧
    pcAnd (after 0x4343 (State.setV · 3 0x42)) 3 = some (0x0204, 0x42) := by decide

/-- 2.2. -/
theorem test_se_reg :
    pcAnd (after 0x5120 (regs 1 7 2 7)) 1 = some (0x0204, 7) ∧ pcAnd (after 0x5120 (regs 1 7 2 8)) 1 = some (0x0202, 7) := by
  decide

/-- 2.2: VF is an ordinary destination of 6xkk. -/
theorem test_ld_byte : pcAnd (after 0x6F07 (State.setV · 15 1)) 15 = some (0x0202, 7) := by decide

/-- 2.2: the sum wraps and sets no flag. -/
theorem test_add_byte : regAndFlag (after 0x7301 (State.setV · 3 0xFF)) 3 = some (0x00, 0) := by decide

/-- 2.3. -/
theorem test_ld_reg : pcAnd (after 0x8120 (regs 1 0x01 2 0xAB)) 1 = some (0x0202, 0xAB) := by decide

/-- R101, R102, R103: VF = 1 is left. -/
theorem test_logic :
    regAndFlag (after 0x8121 fun s => (regs 1 0x0F 2 0xF0 s).setV vF 1) 1 = some (0xFF, 1) ∧
    regAndFlag (after 0x8122 fun s => (regs 1 0x3C 2 0x0F s).setV vF 1) 1 = some (0x0C, 1) ∧
    regAndFlag (after 0x8123 fun s => (regs 1 0xFF 2 0x0F s).setV vF 1) 1 = some (0xF0, 1) := by decide

/-- 2.3: carry, no carry at 255, the flag winning over the sum, the old VF as an operand. -/
theorem test_add_reg :
    regAndFlag (after 0x8124 (regs 1 0xFF 2 0x01)) 1 = some (0x00, 1) ∧
    regAndFlag (after 0x8124 (regs 1 0x80 2 0x7F)) 1 = some (0xFF, 0) ∧
    regAndFlag (after 0x8F24 (regs 15 0x01 2 0x02)) 15 = some (0, 0) ∧
    regAndFlag (after 0x81F4 (regs 1 0xFE 15 0x01)) 1 = some (0xFF, 0) := by decide

/-- 2.3, S7. -/
theorem test_sub_reg :
    regAndFlag (after 0x8125 (regs 1 0x03 2 0x05)) 1 = some (0xFE, 0) ∧
    regAndFlag (after 0x8115 (State.setV · 1 0x9C)) 1 = some (0x00, 1) ∧
    regAndFlag (after 0x81F5 (regs 1 0x05 15 0x06)) 1 = some (0xFF, 0) ∧
    regAndFlag (after 0x8F25 (regs 15 0x05 2 0x03)) 15 = some (1, 1) := by decide

/-- 2.3: Vy is ignored; for x = 0xF the flag just written is shifted. -/
theorem test_shr :
    regAndFlag (after 0x8126 (regs 1 0x05 2 0xFF)) 1 = some (0x02, 1) ∧
    regAndFlag (after 0x8126 (regs 1 0x00 15 0x01)) 1 = some (0x00, 0) ∧
    regAndFlag (after 0x8F26 (State.setV · 15 0x03)) 15 = some (0, 0) := by decide

/-- 2.3. -/
theorem test_subn_reg :
    regAndFlag (after 0x8127 (regs 1 0x05 2 0x03)) 1 = some (0xFE, 0) ∧
    regAndFlag (after 0x8117 (State.setV · 1 0x9C)) 1 = some (0x00, 1) ∧
    regAndFlag (after 0x81F7 (regs 1 0x05 15 0x06)) 1 = some (0x01, 1) := by decide

/-- 2.3. -/
theorem test_shl :
    regAndFlag (after 0x812E (State.setV · 1 0x81)) 1 = some (0x02, 1) ∧
    regAndFlag (after 0x8F2E (State.setV · 15 0xC0)) 15 = some (2, 2) ∧
    regAndFlag (after 0x8F2E (State.setV · 15 0x7F)) 15 = some (0, 0) := by decide

/-- 2.3, the table for SHIFT_SRC = VY. -/
theorem test_shift_variant :
    let s := (regs 1 0x05 2 0x0B State.reset).shift .vy lowBitFlag (fun b => b >>> 1) 1 2
    let t := (regs 1 0x05 2 0x8A State.reset).shift .vy topBitFlag (fun b => b <<< 1) 1 2
    (s.getV 1, s.getV vF, s.getV 2) = (0x05, 1, 0x0B) ∧ (t.getV 1, t.getV vF, t.getV 2) = (0x14, 1, 0x8A) := by decide

/-- 2.4. -/
theorem test_sne_reg :
    pcAnd (after 0x9120 (regs 1 7 2 8)) 1 = some (0x0204, 7) ∧ pcAnd (after 0x9120 (regs 1 7 2 7)) 1 = some (0x0202, 7) := by
  decide

/-- 2.4. -/
theorem test_ld_i : (after 0xAFFF (State.setI · 5)).map (fun t => (t.i, t.pc)) = some (0x0FFF, 0x0202) := by decide

/-- 2.4: the sum is not reduced to 12 bits, and the step after it faults at fetch. -/
theorem test_jp_v0 :
    pcAnd (after 0xBFFF (State.setV · 0 0xFF)) 0 = some (0x10FE, 0xFF) ∧
    faultOf ((after 0xBFFF (State.setV · 0 0xFF)).bind next) = some (some ⟨.outOfBounds .fetch 0x10FE, 0x10FE, none⟩, 0x10FE) := by
  decide

/-- 2.4: whatever byte is drawn, it is masked, and the next draw takes the next byte. -/
theorem test_rnd :
    (after 0xC30F).map (fun t => t.getV 3) = some (Config.rnd 0 &&& 0x0F) ∧
    (((after 0xC30F).map (·.withFetchWord 16 0xC4FF)).bind next).map (fun t => t.getV 4) = some (Config.rnd 1 &&& 0xFF) :=
  ⟨rfl, rfl⟩

/-- 2.5: n = 0 is one row, wrapped at both edges; a set cell collides. -/
theorem test_drw :
    (after 0xD010 fun s => dataAt 0x0300 [0xFF, 0x81] (regs 0 0x3C 1 0x1F s)).map
      (fun t => ([(60, 31), (63, 31), (0, 31), (3, 31), (4, 31), (60, 0)].map fun c => Framebuffer.cell t.fb c.1 c.2, t.getV vF)) =
      some ([true, true, true, true, false, false], 0) ∧
    (after 0xD010 fun s => dataAt 0x0300 [0xFF] (s.setFb (Framebuffer.toggle (Framebuffer.toggle s.fb 0 0) 9 0))).map
      (fun t => ([(0, 0), (1, 0), (7, 0), (8, 0), (9, 0)].map fun c => Framebuffer.cell t.fb c.1 c.2, t.getV vF)) =
      some ([false, true, true, false, true], 1) := by decide +kernel

/-- 2.5: VF as a coordinate; the bounds, and the fault that leaves VF alone. -/
theorem test_drw_flag_and_bounds :
    (after 0xDF10 fun s => dataAt 0x0300 [0x80] (regs 15 4 1 2 s)).map (fun t => (Framebuffer.cell t.fb 4 2, t.getV vF)) =
      some (true, 0) ∧
    (after 0xD013 (State.setI · 0x0FFC)).map (fun t => (t.fault, t.pc)) = some (none, 0x0202) ∧
    (after 0xD014 fun s => (s.setI 0x0FFC).setV vF 7).map (fun t => (t.fault, t.pc, t.getV vF)) =
      some (some ⟨.outOfBounds .dataRead 0x1000, 0x0200, some 0xD014⟩, 0x0200, 7) := by decide

/-- 2.5, the table for the other values of DRAW_ROWS. -/
theorem test_draw_variants :
    let s := dataAt 0x0300 (List.replicate 16 0x80) State.reset
    let rows := fun t : State => [0, 1, 2, 15].map fun r => Framebuffer.cell t.fb 0 r
    rows (s.draw .strict 0 1 0) = [false, false, false, false] ∧ rows (s.draw .strict 0 1 2) = [true, true, false, false] ∧
    rows (s.draw .ext16 0 1 0) = [true, true, true, true] ∧ rows (s.draw .inclusive 0 1 2) = [true, true, true, false] := by
  decide +kernel

/-- 2.6. -/
theorem test_skp :
    pcAnd (after 0xE19E fun s => (s.setKey 5 true).setV 1 5) 1 = some (0x0204, 5) ∧
    pcAnd (after 0xE19E fun s => (s.setKey 4 true).setV 1 5) 1 = some (0x0202, 5) ∧
    faultOf (after 0xE19E (State.setV · 1 0x10)) = some (some ⟨.outOfBounds .key 0x10, 0x0200, some 0xE19E⟩, 0x0200) := by
  decide

/-- 2.6. -/
theorem test_sknp :
    pcAnd (after 0xE1A1 fun s => (s.setKey 5 true).setV 1 5) 1 = some (0x0202, 5) ∧
    pcAnd (after 0xE1A1) 1 = some (0x0204, 0) ∧
    faultOf (after 0xE1A1 (State.setV · 1 0xFF)) = some (some ⟨.outOfBounds .key 0xFF, 0x0200, some 0xE1A1⟩, 0x0200) := by
  decide

/-- 2.7. -/
theorem test_ld_vx_dt : pcAnd (after 0xF307 (State.setDt · 0x2A)) 3 = some (0x0202, 0x2A) := by decide

/-- 2.7, S8: the lowest of three keys; with none down the step changes nothing. -/
theorem test_ld_vx_key :
    pcAnd (after 0xF30A fun s => ((s.setKey 9 true).setKey 4 true).setKey 15 true) 3 = some (0x0202, 4) ∧
    after 0xF30A = some (start 0xF30A) := ⟨by decide, rfl⟩

/-- 2.7. -/
theorem test_ld_dt_st :
    (after 0xF315 (State.setV · 3 0x3C)).map (fun t => (t.dt, t.st)) = some (0x3C, 0) ∧
    (after 0xF318 (State.setV · 3 0x02)).map (fun t => (t.dt, t.st, t.soundOn)) = some (0, 0x02, true) := by decide

/-- 2.7: 16 bits wide, and wrapping there. -/
theorem test_add_i :
    (after 0xF31E fun s => (s.setI 0x0FF8).setV 3 0x10).map (·.i) = some 0x1008 ∧
    (after 0xF31E fun s => (s.setI 0xFFFF).setV 3 0x02).map (fun t => (t.i, t.getV vF)) = some (0x0001, 0) := by decide

/-- 2.7: the whole byte is multiplied. -/
theorem test_ld_font :
    (after 0xF329 (State.setV · 3 0x0A)).map (·.i) = some 0x0032 ∧ (after 0xF329 (State.setV · 3 0xFF)).map (·.i) = some 0x04FB := by
  decide

/-- 2.7, S2: 234; the highest base; the fault that writes nothing. -/
theorem test_ld_bcd :
    (after 0xF333 fun s => (s.setI 0x0300).setV 3 0xEA).map (fun t => (Memory.getBytes t.mem 0x300 4, t.i)) =
      some ([2, 3, 4, 0], 0x0300) ∧
    (after 0xF333 fun s => (s.setI 0x0FFD).setV 3 0x64).map (fun t => Memory.getBytes t.mem 0xFFD 3) = some [1, 0, 0] ∧
    (after 0xF333 fun s => (s.setI 0x0FFE).setV 3 0x64).map (fun t => (t.fault, Memory.getBytes t.mem 0xFFE 2)) =
      some (some ⟨.outOfBounds .dataWrite 0x1000, 0x0200, some 0xF333⟩, [0, 0]) := by decide

/-- 2.7: V0 to Vx inclusive, I kept; an address above 16 bits' memory is out of bounds, not wrapped. -/
theorem test_store_regs :
    (after 0xF255 fun s => regs 2 0x33 3 0x44 (regs 0 0x11 1 0x22 (s.setI 0x0300))).map
      (fun t => (Memory.getBytes t.mem 0x300 4, t.i)) = some ([0x11, 0x22, 0x33, 0x00], 0x0300) ∧
    faultOf (after 0xF055 (State.setI · 0xFFFF)) =
      some (some ⟨.outOfBounds .dataWrite 0xFFFF, 0x0200, some 0xF055⟩, 0x0200) ∧
    faultOf (after 0xFF55 (State.setI · 0x0FF1)) =
      some (some ⟨.outOfBounds .dataWrite 0x1000, 0x0200, some 0xFF55⟩, 0x0200) := by decide

/-- 2.7: V0 to Vx inclusive, V3 kept; the default font. -/
theorem test_load_regs :
    (after 0xF265 fun s => (dataAt 0x0300 [0xAA, 0xBB, 0xCC, 0xDD] s).setV 3 0x77).map
      (fun t => (t.v.toList.take 4, t.i)) = some ([0xAA, 0xBB, 0xCC, 0x77], 0x0300) ∧
    (after 0xFF65).map (fun t => t.v.toList) =
      some [0xF0, 0x90, 0x90, 0x90, 0xF0, 0x20, 0x60, 0x20, 0x20, 0x70, 0xF0, 0x10, 0xF0, 0x80, 0xF0, 0xF0] ∧
    faultOf (after 0xF165 (State.setI · 0x0FFF)) =
      some (some ⟨.outOfBounds .dataRead 0x1000, 0x0200, some 0xF165⟩, 0x0200) := by decide

/-! Fetch, faults and events (2.8). -/

theorem test_fetch_edges :
    faultOf (next (State.reset.setPc 0x0FFF)) = some (some ⟨.outOfBounds .fetch 0x1000, 0x0FFF, none⟩, 0x0FFF) ∧
    pcAnd (after 0x6001 (State.setPc · 0x0FFE)) 0 = some (0x1000, 1) ∧
    pcAnd (next ((dataAt 0x0200 [0x00, 0x6A, 0x55] State.reset).setPc 0x0201)) 10 = some (0x0203, 0x55) := by decide

theorem test_unknown_opcode :
    faultOf (after 0x0123) = some (some ⟨.unknownOpcode, 0x0200, some 0x0123⟩, 0x0200) ∧
    faultOf (after 0xE19F) = some (some ⟨.unknownOpcode, 0x0200, some 0xE19F⟩, 0x0200) := by decide

/-- 2.8, S6: the timers stop at zero. -/
theorem test_timer_tick :
    let s := (State.reset.setDt 2).setSt 1
    let show_ := fun t : State => (t.dt, t.st)
    [s.timerTick, s.timerTick.timerTick, s.timerTick.timerTick.timerTick].map show_ = [(1, 0), (0, 0), (0, 0)] := by decide

/-- 2.8: a small load, an empty one, and one of a byte too many, refused whole. -/
theorem test_load :
    (State.reset.event Params.font (.load [0x60, 0x05])).1.fetch = some 0x6005 ∧
    (State.reset.event Params.font (.load [])).1 = State.reset ∧
    State.reset.event Params.font (.load (List.replicate 3585 0)) = (State.reset, .loadRefused .load 0x1001) := by
  refine ⟨rfl, rfl, ?_⟩
  have h := test_image_size.2
  simp only [State.event, State.load, h, List.length_replicate, Bool.false_eq_true, if_false]

/-- 2.8, the last row: events while faulted, on the state its third step leaves. -/
theorem test_faulted_events :
    let r : FaultRecord := ⟨.unknownOpcode, 0x0204, some 0x0001⟩
    let s : State := { State.reset with pc := 0x0204, dt := 2, fault := some r }
    let f := Params.font
    ((s.event f .timerTick).1.dt, (s.event f .timerTick).1.fault) = (1, some r) ∧ (s.event f (.key 3 true)).1.key[3] = true ∧
    s.event f .step = (s, .faulted r) ∧ ((s.event f .reset).1.fault, (s.event f .reset).1.pc, (s.event f .reset).1.dt) = (none, 0x0200, 0) ∧
    causeCode s.fault = 1 :=
  ⟨rfl, rfl, rfl, rfl, rfl⟩

/-- 00 R9, 70 R161(b): another FONT is in memory from power-on, zeros above it, and a byte of it that a program overwrote is back after
`RESET`. -/
theorem test_other_font :
    let font : Font := Vector.replicate 80 0x3C
    let s := State.powerOn font
    [0, 79, 80].map (Memory.get s.mem) = [0x3C, 0x3C, 0x00] ∧
    Memory.get ((s.setMem (Memory.set s.mem 79 0xFF)).event font .reset).1.mem 79 = 0x3C := by decide +kernel

/-- 70 R166. -/
theorem test_lifecycle :
    followsLifecycle true [.reset, .load [], .step, .timerTick, .key 3 true, .reset, .load [], .step] = true ∧
    followsLifecycle true [.step] = false ∧ followsLifecycle true [.load [], .step, .load []] = false := by decide

/-- A placed word runs as the first instruction after reset, also where nothing could be fetched before. -/
theorem test_with_fetch_word :
    pcAnd (next (State.reset.withFetchWord 16 0x6A55)) 10 = some (0x0202, 0x55) ∧
    pcAnd (next ((State.reset.setPc 0x1000).withFetchWord 16 0x6A55)) 10 = some (0x0202, 0x55) := by decide

/-! Witnesses: for each statement that has hypotheses, a concrete state and operands that meet all of them together, and for each
clause one at a boundary of its range. -/

/-- EncodeDecodeRoundTrip, DecodedWordSelectsItsRowOnly. -/
theorem witness_decoded_word : decodeWord 0x8F2E = some (.shl 15 2) ∧ (Instr.shl 15 2).row ∈ opcodeMap := by decide

/-- UnknownWordsAreTheIllegalClasses: a word on each side. -/
theorem witness_unknown_word : decodeWord 0x5121 = none ∧ decodeWord 0x5120 = some (.seReg 1 2) := by decide

/-- StepRunsDecodedInstruction, and at the last PC a fetch succeeds from. -/
theorem witness_step_runs :
    (State.reset.fault = none ∧ State.reset.pc.toNat ≤ 4094 ∧
      decodeBytes [Memory.get State.reset.mem State.reset.pc.toNat, Memory.get State.reset.mem (State.reset.pc.toNat + 1)] =
        .instr .nop []) ∧
    (let s := start 0x6001 (State.setPc · 0x0FFE)
     s.fault = none ∧ s.pc.toNat = 4094 ∧
      decodeBytes [Memory.get s.mem s.pc.toNat, Memory.get s.mem (s.pc.toNat + 1)] = .instr (.ldByte 0 1) []) := by decide

/-- StepEventInOrder and FetchBigEndianOrFault: a set latch; PC at 4095 and at 4094; an unknown word and a known one. -/
theorem witness_step_order :
    (State.reset.takeFault none .stackUnderflow).fault = some ⟨.stackUnderflow, 0x0200, none⟩ ∧
    (let s := State.reset.setPc 0x0FFF; s.fault = none ∧ s.pc.toNat > 4094) ∧
    (let s := start 0x0123; s.fault = none ∧ s.pc.toNat ≤ 4094 ∧ decodeWord 0x0123 = none ∧
      (0x0123 : Word).toNat = 256 * (Memory.get s.mem s.pc.toNat).toNat + (Memory.get s.mem (s.pc.toNat + 1)).toNat) ∧
    (let s := start 0x6001 (State.setPc · 0x0FFE); s.fault = none ∧ s.pc.toNat ≤ 4094 ∧ decodeWord 0x6001 = some (.ldByte 0 1) ∧
      (0x6001 : Word).toNat = 256 * (Memory.get s.mem s.pc.toNat).toNat + (Memory.get s.mem (s.pc.toNat + 1)).toNat) := by
  decide

/-- FaultingStepChangesOnlyTheLatch. -/
theorem witness_faulting_step :
    ∃ s t r, s.fault = none ∧ step s = .next t ∧ t.fault = some r :=
  ⟨State.reset.setPc 0x0FFF, _, _, rfl, rfl, rfl⟩

/-- FaultsExactlyWhenTabulated: a state with the condition and one without, at the boundary, for each kind of check. -/
theorem witness_fault_conditions :
    (∃ t, exec .ret State.reset = .next t) ∧
    faultCondition State.reset .ret = some .stackUnderflow ∧ faultCondition (stacked 1 0 0 State.reset) .ret = none ∧
    faultCondition (stacked 16 0 0 State.reset) (.call 0) = some .stackOverflow ∧
    faultCondition (stacked 15 0 0 State.reset) (.call 0) = none ∧
    faultCondition (State.reset.setI 0x0FF1) (.drw 0 0 15) = some (.outOfBounds .dataRead 0x1000) ∧
    faultCondition (State.reset.setI 0x0FF0) (.drw 0 0 15) = none ∧
    faultCondition (State.reset.setI 0x0FFE) (.ldBcd 0) = some (.outOfBounds .dataWrite 0x1000) ∧
    faultCondition (State.reset.setI 0x0FFD) (.ldBcd 0) = none ∧
    faultCondition (State.reset.setV 1 16) (.skp 1) = some (.outOfBounds .key 16) ∧
    faultCondition (State.reset.setV 1 15) (.sknp 1) = none :=
  ⟨⟨_, rfl⟩, by decide⟩

/-- EventsWhileFaulted. -/
theorem witness_events_while_faulted :
    (State.reset.takeFault none .stackUnderflow).fault = some ⟨.stackUnderflow, 0x0200, none⟩ ∧
    Event.timerTick ≠ .step ∧ Event.timerTick ≠ .reset := by decide

/-- StepKeepsInvariant, RunsKeepInvariant, SoundTimerIsNeverRead: the state after reset meets the invariant and steps. -/
theorem witness_invariant : State.reset.Inv ∧ ∃ t, step State.reset = .next t :=
  ⟨⟨rfl, by decide, by decide, by intro r hr; cases hr⟩, _, rfl⟩

/-- StepKeepsInvariant: a state with the largest PC an instruction leaves, a full stack and a set latch. -/
theorem witness_invariant_boundary :
    ∃ s : State, s.Inv ∧ s.pc = 0x10FE ∧ s.sp = 16 ∧ s.stack[15] = 0x1000 ∧ s.fault ≠ none := by
  refine ⟨(stacked 16 15 0x1000 (State.reset.setPc 0x10FE)).takeFault none .stackOverflow, ⟨rfl, ?_, ?_, ?_⟩, rfl, rfl, rfl, ?_⟩
  · decide
  · decide
  · intro r hr; cases hr; rfl
  · intro h; cases h

/-- OnlyTheirInstructionsWriteState, OnlyDestinationRegistersChange, FramebufferReachesOnlyTheDrawFlag, RandomInputReachesOnlyRnd: an
instruction that answers a next state, a register that is none of its destinations, and two places in the input with the same byte. -/
theorem witness_exec_next :
    (∃ t, exec (.drw 0 1 4) State.reset = .next t) ∧ (∃ t, exec .cls State.reset = .next t) ∧
    (∃ t, exec (.rnd 3 0x0F) State.reset = .next t) ∧ (0 : RegIdx) ∉ destsOf (.drw 0 1 4) ∧ (3 : RegIdx) ∉ destsOf (.loadRegs 2) ∧
    Config.rnd 0 = Config.rnd State.reset.rndIndex ∧ (∀ x kk, Instr.cls ≠ .rnd x kk) ∧ ∀ x y n, Instr.cls ≠ .drw x y n :=
  ⟨⟨_, rfl⟩, ⟨_, rfl⟩, ⟨_, rfl⟩, by decide, by decide, rfl, (fun _ _ h => nomatch h), fun _ _ _ h => nomatch h⟩

/-- DeadSlotsAreUnobservable: one occupied slot, the others different. -/
theorem witness_dead_slots :
    let s := stacked 1 0 0x0206 State.reset
    (∀ k : Fin 16, k.val < s.sp.val → ((Vector.replicate 16 (0x0206 : Word))[k.val]) = s.stack[k.val]) ∧
    (Vector.replicate 16 (0x0206 : Word))[1] ≠ s.stack[1] ∧ ∃ t, step s = .next t :=
  ⟨by decide, by decide, _, rfl⟩

/-- PowerOnValues: the addresses where its two ranges of memory end and begin. -/
theorem witness_power_on_memory :
    let s := State.powerOn Params.font
    79 < 80 ∧ Memory.get s.mem 79 = 0x80 ∧ 80 ≤ 80 ∧ Memory.get s.mem 80 = 0 ∧ 4095 < 4096 ∧ Memory.get s.mem 4095 = 0 := by
  decide +kernel

/-- LoadCopiesImageOrIsRefused: images of each size at the boundary, and the empty one. -/
theorem witness_load_sizes :
    (List.replicate 3584 (1 : Byte)).length ≤ 3584 ∧ (List.replicate 3585 (1 : Byte)).length > 3584 ∧
    ([] : List Byte).length ≤ 3584 := by
  simp only [List.length_replicate, List.length_nil]; omega

/-- CallPushesAndJumps, RetPopsPc: depths 0, 1, 15 and 16. -/
theorem witness_stack_depths :
    (stacked 15 0 0 State.reset).sp.val < 16 ∧ (stacked 16 0 0 State.reset).sp.val = 16 ∧
    0 < (stacked 1 0 0 State.reset).sp.val ∧ State.reset.sp.val = 0 := by decide

/-- CallThenRetReturns. -/
theorem witness_call_then_ret :
    ∃ s t u : State, s.sp.val = 15 ∧ exec (.call 0x300) s = .next t ∧ u.sp = t.sp ∧ u.stack = t.stack :=
  ⟨stacked 15 0 0 State.reset, _, _, rfl, rfl, rfl, rfl⟩

/-- LogicBitByBit, AddSetsCarry, SubtractionsSetNoBorrow, ShiftsReportTheBitOut, ShiftVariantShiftsVy, DrawTwiceRestores: a destination that
is not VF, and one that is; the bits 0 and 7; an operand bit that is clear (RndMasksOneByte). -/
theorem witness_destinations :
    (14 : RegIdx) ≠ vF ∧ (15 : RegIdx) = vF ∧ 0 < 8 ∧ 7 < 8 ∧ (0x0F : Byte).getLsbD 4 = false := by decide

/-- AddSetsCarry at 255 and 256, SubtractionsSetNoBorrow at equal operands and one more. -/
theorem witness_flag_boundaries :
    (let s := regs 1 0x80 2 0x7F State.reset; (s.getV 1).toNat + (s.getV 2).toNat = 255) ∧
    (let s := regs 1 0x80 2 0x80 State.reset; (s.getV 1).toNat + (s.getV 2).toNat = 256) ∧
    (let s := regs 1 7 2 7 State.reset; (s.getV 1).toNat ≥ (s.getV 2).toNat) ∧
    (let s := regs 1 7 2 8 State.reset; ¬ (s.getV 1).toNat ≥ (s.getV 2).toNat) := by decide

/-- DrawXorsSpriteAndReportsCollision, DrawTwiceRestores, DrawOnClearScreen: the last I in range and the first out of range; a clear screen,
a covered cell and one that is not. -/
theorem witness_draw_ranges :
    (State.reset.setI 0x0FF0).i.toNat + (15 : Fin 16).val ≤ 4095 ∧ (State.reset.setI 0x0FF1).i.toNat + (15 : Fin 16).val > 4095 ∧
    (0 : RegIdx) ≠ vF ∧ (1 : RegIdx) ≠ vF ∧ ∀ xx yy, Framebuffer.cell State.reset.fb xx yy = false := by
  refine ⟨by decide, by decide, by decide, by decide, fun xx yy => ?_⟩
  simp [Framebuffer.cell, State.reset]

/-- DrawXorsSpriteAndReportsCollision: the sprite byte 0xC0 at column 63 covers (63, 0) and, wrapped, (0, 0), and not (1, 0); the cell (0, 0)
is set (a collision), and with it clear none is. -/
theorem witness_draw_cells :
    let s := dataAt 0x0300 [0xC0] (State.reset.setV 0 0x3F)
    SpriteCovers s 0 1 1 63 0 ∧ SpriteCovers s 0 1 1 0 0 ∧ ¬ SpriteCovers s 0 1 1 1 0 ∧
    Framebuffer.cell (s.setFb (Framebuffer.toggle s.fb 0 0)).fb 0 0 = true ∧ Framebuffer.cell s.fb 0 0 = false := by
  refine ⟨⟨0, 0, by decide, by decide, by decide, by decide, by decide⟩,
    ⟨0, 1, by decide, by decide, by decide, by decide, by decide⟩, ?_, by decide, by decide⟩
  rintro ⟨r, c, hr, hc, hx, -, hb⟩
  obtain rfl : r = 0 := by omega
  have hv : (State.getV (dataAt 0x0300 [0xC0] (State.reset.setV 0 0x3F)) 0).toNat = 63 := by decide
  rw [hv] at hx
  obtain rfl : c = 2 := by simp only [Fin.val_one] at hx; omega
  revert hb
  decide

/-- OtherDrawRowsDifferInCountOnly: each range of I and n, at its boundary. -/
theorem witness_draw_rows :
    (let s := State.reset.setI 0x0FF1; (14 : Fin 16).val + 1 = (15 : Fin 16).val ∧ s.i.toNat + (14 : Fin 16).val ≤ 4095) ∧
    (State.reset.setI 0x0FF0).i.toNat + 15 ≤ 4095 ∧ (State.reset.setI 0x0FF1).i.toNat + 15 > 4095 ∧ (1 : Fin 16).val > 0 ∧
    (State.reset.setI 0x0FF2).i.toNat + (15 : Fin 16).val > 4096 := by decide

/-- KeySkipsReadOneLatch: an index of 15, and 16. -/
theorem witness_key_index :
    ((State.reset.setV 1 15).getV 1).toNat = (15 : Fin 16).val ∧ ((State.reset.setV 1 16).getV 1).toNat > 15 := by decide

/-- KeyWaitTakesLeastKeyOrRepeats: key 4 the least of two, and no key. -/
theorem witness_key_wait :
    (let s := (State.reset.setKey 9 true).setKey 4 true
     s.key[(4 : Fin 16).val] = true ∧ ∀ j : Fin 16, j < 4 → s.key[j.val] = false) ∧
    ∀ k : Fin 16, State.reset.key[k.val] = false := by decide

/-- BcdWritesThreeDigits, BlockStoreWritesRegisters, BlockLoadReadsRegisters: the last I in range and the first out of range. -/
theorem witness_store_ranges :
    (State.reset.setI 0x0FFD).i.toNat + 2 ≤ 4095 ∧ (State.reset.setI 0x0FFE).i.toNat + 2 > 4095 ∧
    (State.reset.setI 0x0FF0).i.toNat + (15 : RegIdx).val ≤ 4095 ∧ (State.reset.setI 0x0FF1).i.toNat + (15 : RegIdx).val > 4095 ∧
    (0 : RegIdx) ≤ 15 ∧ (15 : RegIdx) ≤ 15 := by decide

/-- BlockLoadUndoesBlockStore. -/
theorem witness_store_then_load :
    ∃ s t u : State, s.i.toNat + (15 : RegIdx).val ≤ 4095 ∧ exec (.storeRegs 15) s = .next t ∧ u.i = s.i ∧ u.mem = t.mem :=
  ⟨State.reset.setI 0x0300, _, _, by decide, rfl, rfl, rfl⟩

/-- StoredCodeIsFetchedNext. -/
theorem witness_stored_code :
    ∃ s t : State, 1 ≤ (1 : RegIdx).val ∧ s.i = s.pc + 2 ∧ s.i.toNat + (1 : RegIdx).val ≤ 4095 ∧ exec (.storeRegs 1) s = .next t :=
  ⟨State.reset.setI 0x0202, _, by decide, rfl, by decide, rfl⟩

/-- ZeroedMemoryRunsAsNops: one NOP after reset, and the last NOP before the end of memory. -/
theorem witness_zeroed_memory :
    (State.reset.fault = none ∧ State.reset.pc.toNat + 2 * 1 ≤ 4096 ∧
      ∀ a, State.reset.pc.toNat ≤ a → a < State.reset.pc.toNat + 2 * 1 → Memory.get State.reset.mem a = 0) ∧
    (let s := State.reset.setPc 0x0FFE
     s.fault = none ∧ s.pc.toNat + 2 * 1 = 4096 ∧
      ∀ a, s.pc.toNat ≤ a → a < s.pc.toNat + 2 * 1 → Memory.get s.mem a = 0) := by
  have z : ∀ a, 80 ≤ a → Memory.get State.reset.mem a = 0 := fun a h => List.getD_eq_default _ _ h
  have h1 : State.reset.pc.toNat = 512 := rfl
  have h2 : (State.reset.setPc 0x0FFE).pc.toNat = 4094 := rfl
  exact ⟨⟨rfl, by omega, fun a h _ => z a (by omega)⟩, rfl, by rw [h2], fun a h _ => z a (by omega)⟩

/-- SelfJumpStandsStill. -/
theorem witness_self_jump : (start 0x1200).atSelfJump = true := by decide

/-- DisplayAndSoundOutputs: the last element of the view. -/
theorem witness_display : 2047 < 2048 ∧ State.reset.display[2047] = false := by decide +kernel

end Sys2Proof.Machine.Tests
end

section
/-! PROOFS of the memory family (20_memory.md): the fetch primitive. -/

namespace Sys2Proof.Machine

/-- The byte at the lower address is the high byte of the word (20 R54). -/
@[simp] theorem extractLsb'_high_wordOfBytes (hi lo : Byte) : (wordOfBytes hi lo).extractLsb' 8 8 = hi :=
  (List.cons.inj (bytesOfWord_wordOfBytes hi lo)).1

/-- The byte at the higher address is the low byte of the word (20 R54). -/
@[simp] theorem extractLsb'_low_wordOfBytes (hi lo : Byte) : (wordOfBytes hi lo).extractLsb' 0 8 = lo :=
  (List.cons.inj (List.cons.inj (bytesOfWord_wordOfBytes hi lo)).2).1

/-- Settles O8: the fetch succeeds by `State.fetch_eq` and its word splits back into the two bytes; it fails by
`State.fetch_eq_none`, and the step is then the fetch fault. -/
theorem fetchBigEndianOrFault : Obligations.FetchBigEndianOrFault := by
  intro s
  constructor
  · intro hpc
    exact ⟨_, State.fetch_eq hpc, extractLsb'_high_wordOfBytes _ _, extractLsb'_low_wordOfBytes _ _, s.npc_toNat⟩
  · intro hpc
    have hfetch : s.fetch = none := State.fetch_eq_none.mpr hpc
    exact ⟨hfetch, fun hfault => step_fetchFault hfault hfetch⟩

end Sys2Proof.Machine
end

section
/-! SUPPORT. Frames of the shared operations: PC is outside every frame, and what a stack operation leaves unchanged. -/

namespace Sys2Proof.Machine

/-- Any frame holds of a state and itself. -/
theorem Unchanged.refl (changed : List Part) (s : State) : Unchanged changed s s :=
  .of (fun _ _ => rfl) (fun _ _ => rfl) (by simp)

/-- A write of PC keeps every frame. -/
theorem Unchanged.setPc {changed : List Part} {s t : State} (h : Unchanged changed s t) (w : Word) :
    Unchanged changed s (t.setPc w) :=
  ⟨h.reg, h.i, h.slots, h.sp, h.dt, h.st, h.keys, h.cells, h.latch, h.rnd, h.byte⟩

/-- The advance of PC keeps every frame. -/
theorem Unchanged.advance {changed : List Part} {s t : State} (h : Unchanged changed s t) :
    Unchanged changed s t.advance :=
  h.setPc t.npc

/-- A new framebuffer changes the cells alone. -/
theorem unchanged_setFb (s : State) (fb : Framebuffer) : Unchanged [.cells] s (s.setFb fb) :=
  .of (fun _ _ => rfl) (fun _ _ => rfl) (by simp)

/-- A push changes the slots and SP alone (10 R28). -/
theorem unchanged_of_push {s t : State} {w : Word} (h : s.push w = some t) : Unchanged [.slots, .sp] s t := by
  unfold State.push at h
  split at h
  · obtain rfl := Option.some.inj h
    exact .of (fun _ _ => rfl) (fun _ _ => rfl) (by simp)
  · cases h

/-- A pop changes SP alone; the slot keeps its contents (10 R27, R28). -/
theorem unchanged_of_pop {s t : State} {w : Word} (h : s.pop = some (w, t)) : Unchanged [.sp] s t := by
  unfold State.pop at h
  split at h
  · cases h
  · obtain ⟨rfl, rfl⟩ := Prod.mk.inj (Option.some.inj h)
    exact .of (fun _ _ => rfl) (fun _ _ => rfl) (by simp)

end Sys2Proof.Machine
end

section
/-! PROOFS of the flow family (40_flow_0_1_2.md) and of 1nnn's indexed form Bnnn (43 R112). -/

namespace Sys2Proof.Machine

/-- CALL with a free slot (40 R94): push npc, then jump. -/
theorem exec_call_of_push {s t : State} (nnn : Addr12) (h : s.push s.npc = some t) :
    exec (.call nnn) s = .next (t.setPc (addrOf nnn)) := by
  simp only [exec, execCall, h]

/-- CALL with sixteen slots occupied (40 R94, decision D13). -/
theorem exec_call_overflow {s : State} (nnn : Addr12) (h : s.sp.val = 16) :
    exec (.call nnn) s = .next (s.raise (.call nnn) .stackOverflow) := by
  simp only [exec, execCall, (s.push_eq_none s.npc).mpr h]

/-- RET with an occupied slot (40 R92): jump to what the pop gives. -/
theorem exec_ret_of_pop {s t : State} {target : Word} (h : s.pop = some (target, t)) :
    exec .ret s = .next (t.setPc target) := by
  simp only [exec, execRet, h]

/-- RET on an empty stack (40 R92, decision D13). -/
theorem exec_ret_underflow {s : State} (h : s.sp.val = 0) : exec .ret s = .next (s.raise .ret .stackUnderflow) := by
  simp only [exec, execRet, s.pop_eq_none.mpr h]

/-- A 12-bit address and a byte add up below 2^16, so the target of Bnnn is the true sum (43 R112). -/
theorem addrOf_add_byte_toNat (nnn : Addr12) (b : Byte) :
    (addrOf nnn + b.setWidth 16).toNat = nnn.toNat + b.toNat := by
  have hn := nnn.isLt
  have hb := b.isLt
  rw [BitVec.toNat_add, addrOf_toNat, BitVec.toNat_setWidth]
  omega

/-- Settles O28: both only advance PC, CLS after clearing the framebuffer. -/
theorem nopAndClsComplete : Obligations.NopAndClsComplete := by
  intro s
  constructor
  · exact ⟨s.advance, rfl, s.advance_pc, (Unchanged.refl [] s).advance⟩
  · exact ⟨(s.setFb Framebuffer.clear).advance, rfl, rfl, Framebuffer.cell_clear, (unchanged_setFb s _).advance⟩

/-- Settles O29: both write PC alone, and the sum of Bnnn does not wrap (`addrOf_add_byte_toNat`). -/
theorem jumpsSetPc : Obligations.JumpsSetPc := by
  intro s nnn
  constructor
  · exact ⟨s.setPc (addrOf nnn), rfl, addrOf_toNat nnn, (Unchanged.refl [] s).setPc _⟩
  · exact ⟨s.setPc (addrOf nnn + (s.getV 0).setWidth 16), rfl, addrOf_add_byte_toNat nnn _,
      (Unchanged.refl [] s).setPc _⟩

/-- Settles O30: the push succeeds exactly below depth 16 and writes the slot that SP names; otherwise CALL raises. -/
theorem callPushesAndJumps : Obligations.CallPushesAndJumps := by
  intro s nnn
  constructor
  · intro hfree
    have hpush := s.push_eq s.npc hfree
    refine ⟨_, exec_call_of_push nnn hpush, addrOf_toNat nnn, rfl, ?_, ?_, (unchanged_of_push hpush).setPc _⟩
    · exact Vector.getElem_set_self hfree
    · intro k hk
      exact Vector.getElem_set_ne hfree k.isLt hk.symm
  · exact exec_call_overflow nnn

/-- Settles O31: the pop succeeds exactly above depth 0 and gives the slot below SP; otherwise RET raises. -/
theorem retPopsPc : Obligations.RetPopsPc := by
  intro s
  constructor
  · intro hocc
    have hpop := s.pop_eq hocc.ne'
    exact ⟨_, exec_ret_of_pop hpop, rfl, Nat.sub_add_cancel hocc, (unchanged_of_pop hpop).setPc _⟩
  · exact exec_ret_underflow

end Sys2Proof.Machine
end

section
/-! SUPPORT. Frames of a register write and of a skip, and what either leaves in PC and in the register. -/

namespace Sys2Proof.Machine

/-- A write of a register that the frame lists keeps the frame. -/
theorem Unchanged.setV {changed : List Part} {s t : State} (h : Unchanged changed s t) {x : RegIdx} (b : Byte)
    (hx : Part.reg x ∈ changed) : Unchanged changed s (t.setV x b) := by
  refine ⟨fun r hr => ?_, h.i, h.slots, h.sp, h.dt, h.st, h.keys, h.cells, h.latch, h.rnd, h.byte⟩
  have hne : r ≠ x := by
    rintro rfl
    exact hr hx
  exact (t.getV_setV_ne b hne).trans (h.reg r hr)

/-- A register write changes that register alone (10 R21). -/
theorem unchanged_setV (s : State) (x : RegIdx) (b : Byte) : Unchanged [.reg x] s (s.setV x b) :=
  (Unchanged.refl _ s).setV b (List.mem_singleton_self _)

/-- A skip writes PC alone (41, introduction). -/
theorem unchanged_skipIf (s : State) (cond : Bool) : Unchanged [] s (s.skipIf cond) :=
  (Unchanged.refl [] s).setPc _

/-- A skip advances PC by the 2 of the fetch, and by 2 more exactly when its condition holds (41, introduction). -/
theorem State.skipIf_pc_of_iff (s : State) {cond : Bool} {P : Prop} [Decidable P] (h : cond = true ↔ P) :
    (s.skipIf cond).pc = if P then s.pc + 4 else s.pc + 2 := by
  have hskip : s.npc + 2 = s.pc + 4 := BitVec.add_assoc s.pc 2 2
  rw [State.skipIf_pc, hskip]
  simp only [h, State.npc]

/-- A meaning that is one skip completes: PC as `State.skipIf_pc_of_iff` says, and everything else unchanged. -/
theorem exec_skip {s : State} {i : Instr} {cond : Bool} (hexec : exec i s = .next (s.skipIf cond)) {P : Prop} [Decidable P]
    (h : cond = true ↔ P) :
    ∃ t, exec i s = .next t ∧ t.pc = (if P then s.pc + 4 else s.pc + 2) ∧ Unchanged [] s t :=
  ⟨_, hexec, s.skipIf_pc_of_iff h, unchanged_skipIf s cond⟩

/-- A meaning that is one register write and the advance completes: PC is 2 further, the register holds the byte, and
everything else is unchanged. -/
theorem exec_setV_advance {s : State} {i : Instr} {x : RegIdx} {b : Byte}
    (hexec : exec i s = .next (s.setV x b).advance) :
    ∃ t, exec i s = .next t ∧ t.pc = s.pc + 2 ∧ t.getV x = b ∧ Unchanged [.reg x] s t :=
  ⟨_, hexec, (s.setV x b).advance_pc, s.getV_setV_self x b, (unchanged_setV s x b).advance⟩

end Sys2Proof.Machine
end

section
/-! PROOFS of the skips, the immediate operations and the register copy (41_skip_imm_3_to_7.md, 42 R100, 43 R110). -/

namespace Sys2Proof.Machine

/-- Settles O33: each of the four is one skip (`exec_skip`), and its Boolean test decides its condition. -/
theorem skipsOnEquality : Obligations.SkipsOnEquality := by
  intro s x y kk
  refine ⟨?seByte, ?sneByte, ?seReg, ?sneReg⟩
  case seByte => exact exec_skip rfl beq_iff_eq
  case sneByte => exact exec_skip rfl bne_iff_ne
  case seReg => exact exec_skip rfl beq_iff_eq
  case sneReg => exact exec_skip rfl bne_iff_ne

/-- Settles O34: each of the three is one register write (`exec_setV_advance`); the sum of bytes is the sum modulo 256. -/
theorem loadsAndAddImmediate : Obligations.LoadsAndAddImmediate := by
  intro s x y kk
  refine ⟨exec_setV_advance rfl, ?addByte, exec_setV_advance rfl⟩
  case addByte =>
    have hexec : exec (.addByte x kk) s = .next (s.setV x (s.getV x + kk)).advance := rfl
    obtain ⟨t, ht, hpc, hsum, hframe⟩ := exec_setV_advance hexec
    exact ⟨t, ht, hpc, hsum ▸ BitVec.toNat_add _ _, hframe⟩

end Sys2Proof.Machine
end

section
/-! SUPPORT. A result and then a flag (10 R23): the frame of the two writes, the flag as a number, and the meaning that is such a
pair. -/

namespace Sys2Proof.Machine

/-- A result and a flag change the destination and VF alone (10 R21, R22). -/
theorem unchanged_setResultThenFlag (s : State) (x : RegIdx) (result flag : Byte) :
    Unchanged [.reg x, .reg vF] s (s.setResultThenFlag x result flag) :=
  ((Unchanged.refl _ s).setV result (by simp)).setV flag (by simp)

/-- A flag value as a number (10 R22). -/
theorem flagOf_toNat (P : Prop) [Decidable P] : (flagOf P).toNat = if P then 1 else 0 := by
  by_cases h : P <;> simp [flagOf, h]

/-- A meaning that is one result, one flag and the advance completes: PC is 2 further, VF is the flag, the destination holds the
result unless it is VF itself (decision D14), and everything else is unchanged. -/
theorem exec_setResultThenFlag_advance {s : State} {i : Instr} {x : RegIdx} {result flag : Byte}
    (hexec : exec i s = .next (s.setResultThenFlag x result flag).advance) :
    ∃ t, exec i s = .next t ∧ t.pc = s.pc + 2 ∧ t.getV vF = flag ∧ (x ≠ vF → t.getV x = result) ∧
      Unchanged [.reg x, .reg vF] s t := by
  refine ⟨_, hexec, State.advance_pc _, ?flag, fun hx => ?result, (unchanged_setResultThenFlag s x result flag).advance⟩
  case flag => simp [State.getV_setResultThenFlag]
  case result => simp [State.getV_setResultThenFlag, hx]

end Sys2Proof.Machine
end

section
/-! PROOFS of the register ALU (42_alu_8.md): the logic operations, the addition and the subtractions. -/

namespace Sys2Proof.Machine

/-- A logic operation writes Vx alone, so the bits of Vx afterwards are those of the byte written (42 R101 to R103). -/
theorem exec_setV_advance_bits {s : State} {i : Instr} {x : RegIdx} {b : Byte} {bit : Nat → Bool}
    (hexec : exec i s = .next (s.setV x b).advance) (hbits : ∀ k, b.getLsbD k = bit k) :
    ∃ t, exec i s = .next t ∧ t.pc = s.pc + 2 ∧ (∀ k, k < 8 → (t.getV x).getLsbD k = bit k) ∧ Unchanged [.reg x] s t := by
  obtain ⟨t, ht, hpc, hreg, hframe⟩ := exec_setV_advance hexec
  exact ⟨t, ht, hpc, fun k _ => hreg ▸ hbits k, hframe⟩

/-- The difference of two bytes is the integer difference modulo 256 (42 R105, R107). -/
theorem sub_toNat_eq_emod (a b : Byte) : ((a - b).toNat : Int) = (a.toNat - b.toNat : Int) % 256 := by
  have ha := a.isLt
  have hb := b.isLt
  rw [BitVec.toNat_sub]
  omega

/-- A meaning that subtracts (42 R105, R107) completes, whichever register is the minuend: the no-borrow flag wins over the
difference. -/
theorem exec_subtraction {s : State} {i : Instr} {x : RegIdx} {minuend subtrahend : Byte}
    (hexec : exec i s =
      .next (s.setResultThenFlag x (minuend - subtrahend) (noBorrowFlag minuend subtrahend)).advance) :
    ∃ t, exec i s = .next t ∧ t.pc = s.pc + 2 ∧
      (t.getV vF).toNat = (if minuend.toNat ≥ subtrahend.toNat then 1 else 0) ∧
      (x ≠ vF → ((t.getV x).toNat : Int) = (minuend.toNat - subtrahend.toNat : Int) % 256) ∧
      Unchanged [.reg x, .reg vF] s t := by
  obtain ⟨t, ht, hpc, hflag, hdiff, hframe⟩ := exec_setResultThenFlag_advance hexec
  exact ⟨t, ht, hpc, hflag ▸ flagOf_toNat _, fun hx => hdiff hx ▸ sub_toNat_eq_emod minuend subtrahend, hframe⟩

/-- Settles O35: each of the three is one register write, and the library gives the bits of the byte written. -/
theorem logicBitByBit : Obligations.LogicBitByBit := by
  intro s x y
  refine ⟨?orReg, ?andReg, ?xorReg⟩
  case orReg => exact exec_setV_advance_bits rfl fun _ => BitVec.getLsbD_or
  case andReg => exact exec_setV_advance_bits rfl fun _ => BitVec.getLsbD_and
  case xorReg => exact exec_setV_advance_bits rfl fun _ => BitVec.getLsbD_xor

/-- Settles O36: the sum of bytes is the sum modulo 256, and the flag is decided by the true sum of the old values. -/
theorem addSetsCarry : Obligations.AddSetsCarry := by
  intro s x y
  have hexec : exec (.addReg x y) s =
      .next (s.setResultThenFlag x (s.getV x + s.getV y) (carryFlag (s.getV x) (s.getV y))).advance := rfl
  obtain ⟨t, ht, hpc, hflag, hsum, hframe⟩ := exec_setResultThenFlag_advance hexec
  exact ⟨t, ht, hpc, hflag ▸ flagOf_toNat _, fun hx => hsum hx ▸ BitVec.toNat_add _ _, hframe⟩

/-- Settles O37: both are one subtraction (`exec_subtraction`), with the minuend Vx in 8xy5 and Vy in 8xy7. -/
theorem subtractionsSetNoBorrow : Obligations.SubtractionsSetNoBorrow := by
  intro s x y
  exact ⟨exec_subtraction rfl, exec_subtraction rfl⟩

end Sys2Proof.Machine
end

section
/-! SUPPORT. Frames of a write of I and of a draw from the random input, and the meaning that is one write of I. -/

namespace Sys2Proof.Machine

/-- A write of I changes I alone (10 R26). -/
theorem unchanged_setI (s : State) (w : Word) : Unchanged [.i] s (s.setI w) :=
  .of (fun _ _ => rfl) (fun _ _ => rfl) (by simp)

/-- A draw of one random byte keeps every frame that lists the random input (10 R35(a)). -/
theorem Unchanged.rndByte {changed : List Part} {s t : State} (h : Unchanged changed s t) (hrnd : Part.rnd ∈ changed) :
    Unchanged changed s t.rndByte.2 :=
  ⟨h.reg, h.i, h.slots, h.sp, h.dt, h.st, h.keys, h.cells, h.latch, absurd hrnd, h.byte⟩

/-- A meaning that is one write of I and the advance completes: PC is 2 further, I has the value written, and everything else,
VF included, is unchanged. -/
theorem exec_setI_advance {s : State} {i : Instr} {w : Word} {value : Nat}
    (hexec : exec i s = .next (s.setI w).advance) (hw : w.toNat = value) :
    ∃ t, exec i s = .next t ∧ t.pc = s.pc + 2 ∧ t.i.toNat = value ∧ Unchanged [.i] s t :=
  ⟨_, hexec, (s.setI w).advance_pc, hw, (unchanged_setI s w).advance⟩

end Sys2Proof.Machine
end

section
/-! PROOFS of the writes of I (43 R111; 46 R123, R124) and of the random byte (43 R113). -/

namespace Sys2Proof.Machine

/-- A word and a zero-extended byte add up modulo 65536 (46 R123). -/
theorem word_add_byte_toNat (w : Word) (b : Byte) : (w + b.setWidth 16).toNat = (w.toNat + b.toNat) % 65536 := by
  rw [BitVec.toNat_add, BitVec.toNat_setWidth_of_le (by decide)]

/-- The glyph address is the true product: 5 times a byte stays below 2^16 (46 R124, decision D20). -/
theorem glyphAddr_toNat (b : Byte) : (glyphAddr b).toNat = 5 * b.toNat := by
  have hb := b.isLt
  exact Nat.mod_eq_of_lt (show 5 * b.toNat < 2 ^ 16 by omega)

/-- A masked byte has no bit that the mask has clear (43 R113). -/
theorem getLsbD_and_eq_false_of_mask {b mask : Byte} {k : Nat} (h : mask.getLsbD k = false) :
    (b &&& mask).getLsbD k = false := by
  rw [BitVec.getLsbD_and, h, Bool.and_false]

/-- Settles O40: each of the three is one write of I (`exec_setI_advance`), and its word is the number stated. -/
theorem indexRegisterWrites : Obligations.IndexRegisterWrites := by
  intro s x nnn
  refine ⟨?ldI, ?addI, ?ldFont⟩
  case ldI => exact exec_setI_advance rfl (addrOf_toNat nnn)
  case addI => exact exec_setI_advance rfl (word_add_byte_toNat s.i (s.getV x))
  case ldFont => exact exec_setI_advance rfl (glyphAddr_toNat (s.getV x))

/-- Settles O41: one draw (`Unchanged.rndByte`), then one write of Vx with the masked byte. -/
theorem rndMasksOneByte : Obligations.RndMasksOneByte := by
  intro s x kk
  have hdraw : Unchanged [.reg x, .rnd] s s.rndByte.2 := (Unchanged.refl _ s).rndByte (by simp)
  have hreg : (s.rndByte.2.setV x (s.rndByte.1 &&& kk)).advance.getV x = s.rndByte.1 &&& kk :=
    State.getV_setV_self _ x _
  refine ⟨_, rfl, State.advance_pc _, rfl, hreg, fun k hk => ?mask, (hdraw.setV _ (by simp)).advance⟩
  case mask =>
    rw [hreg]
    exact getLsbD_and_eq_false_of_mask hk

end Sys2Proof.Machine
end

section
/-! SUPPORT. Frame of the sprite draw, and the draw whose rows do not all lie in memory (44 R114). -/

namespace Sys2Proof.Machine

/-- A write of the framebuffer keeps every frame that lists the cells. -/
theorem Unchanged.setFb {changed : List Part} {s t : State} (h : Unchanged changed s t) (fb : Framebuffer)
    (hcells : Part.cells ∈ changed) : Unchanged changed s (t.setFb fb) :=
  ⟨h.reg, h.i, h.slots, h.sp, h.dt, h.st, h.keys, absurd hcells, h.latch, h.rnd, h.byte⟩

/-- A draw changes VF and the cells alone (44 R114). -/
theorem unchanged_drawAt (s : State) (x y : RegIdx) (rows : Nat) : Unchanged [.reg vF, .cells] s (s.drawAt x y rows) := by
  obtain ⟨fb, flag, hdraw⟩ := s.drawAt_eq x y rows
  rw [hdraw]
  exact ((Unchanged.refl _ s).setFb fb (by simp)).setV flag (by simp)

/-- Dxyn with a row above address 4095 (44 R114, decision D11): the check comes before any change. -/
theorem exec_drw_outside {s : State} (x y : RegIdx) {n : Fin 16} (h : s.i.toNat + n.val > 4095) :
    exec (.drw x y n) s = .next (s.raise (.drw x y n) (.outOfBounds .dataRead (max s.i.toNat 4096))) := by
  have hcheck : accessFault .dataRead s.i (drawRowCount Params.drawRows n) =
      some (.outOfBounds .dataRead (max s.i.toNat 4096)) :=
    accessFault_outside (count := n.val + 1) (by omega) n.val.succ_pos
  simp only [exec, execDrw, State.draw, hcheck]

end Sys2Proof.Machine
end

section
/-! PROOFS of the sprite draw (44_draw_D.md). -/

namespace Sys2Proof.Machine

/-- Settles O42: inside memory Dxyn is one draw of n + 1 rows, whose cells and VF are `State.drawAt_spec` (at most 16 rows, so no
cell is met twice) and whose frame is `unchanged_drawAt`; otherwise it raises (`exec_drw_outside`). -/
theorem drawXorsSpriteAndReportsCollision : Obligations.DrawXorsSpriteAndReportsCollision := by
  intro s x y n
  constructor
  · intro hin
    have hrows : n.val + 1 ≤ 32 := by omega
    obtain ⟨hcovered, hother, hcollision, hclear⟩ := s.drawAt_spec x y (n.val + 1) hrows
    exact ⟨_, exec_drw x y hin, State.advance_pc _, hcovered, hother, hcollision, hclear,
      (unchanged_drawAt s x y _).advance⟩
  · exact exec_drw_outside x y

end Sys2Proof.Machine
end

section
/-! PROOFS of the skips on a key's state (45_keys_E.md). -/

namespace Sys2Proof.Machine

/-- A meaning that is a skip on a key's state completes when Vx is an index: it is one skip, on the latch named (45 R117, R118). -/
theorem exec_skipOnKey_of_index {s : State} {i : Instr} {x : RegIdx} {k : Fin 16} {want : Bool}
    (hexec : exec i s = .next (s.skipOnKey i x want)) (hk : (s.getV x).toNat = k.val) :
    ∃ t, exec i s = .next t ∧ t.pc = (if s.key[k.val] = want then s.pc + 4 else s.pc + 2) ∧ Unchanged [] s t :=
  exec_skip (State.skipOnKey_of_index hk i want ▸ hexec) beq_iff_eq

/-- A meaning that is a skip on a key's state raises when Vx is above 15, with the whole of Vx in the record (decision D12). -/
theorem exec_skipOnKey_of_large {s : State} {i : Instr} {x : RegIdx} {want : Bool}
    (hexec : exec i s = .next (s.skipOnKey i x want)) (hlarge : (s.getV x).toNat > 15) :
    exec i s = .next (s.raise i (keyFault (s.getV x))) :=
  State.skipOnKey_of_large hlarge i want ▸ hexec

/-- Settles O46: each of the two is one skip on a key's state, split on whether Vx is an index (`exec_skipOnKey_of_index`) or above 15
(`exec_skipOnKey_of_large`). -/
theorem keySkipsReadOneLatch : Obligations.KeySkipsReadOneLatch := by
  intro s x
  have hskp : exec (.skp x) s = .next (s.skipOnKey (.skp x) x true) := rfl
  have hsknp : exec (.sknp x) s = .next (s.skipOnKey (.sknp x) x false) := rfl
  constructor
  · intro k hk
    exact ⟨exec_skipOnKey_of_index hskp hk, exec_skipOnKey_of_index hsknp hk⟩
  · intro hlarge
    exact ⟨exec_skipOnKey_of_large hskp hlarge, exec_skipOnKey_of_large hsknp hlarge⟩

end Sys2Proof.Machine
end

section
/-! SUPPORT. Frames of a write of a timer, of a run of bytes and of the register block, and the meaning that checks the range at I
before it changes anything. -/

namespace Sys2Proof.Machine

/-- A write of DT changes DT alone (10 R29). -/
theorem unchanged_setDt (s : State) (b : Byte) : Unchanged [.dt] s (s.setDt b) :=
  .of (fun _ _ => rfl) (fun _ _ => rfl) (by simp)

/-- A write of ST changes ST alone (10 R30). -/
theorem unchanged_setSt (s : State) (b : Byte) : Unchanged [.st] s (s.setSt b) :=
  .of (fun _ _ => rfl) (fun _ _ => rfl) (by simp)

/-- Which registers the destinations of Fx65 list (46 R127). -/
theorem mem_destsOf_loadRegs {x r : RegIdx} : Part.reg r ∈ (destsOf (.loadRegs x)).map Part.reg ↔ r ≤ x := by
  simp [destsOf]

/-- A load of the register block changes its destinations alone (46 R127). -/
theorem unchanged_loadBlock (s : State) (x : RegIdx) (a : Nat) :
    Unchanged ((destsOf (.loadRegs x)).map Part.reg) s (s.loadBlock x a) := by
  refine .of (fun r hr => ?reg) (fun _ _ => rfl) (by simp)
  case reg =>
    rw [State.getV_loadBlock, if_neg (mt mem_destsOf_loadRegs.mpr hr)]

/-- Bytes written at rising addresses change those bytes of memory alone (20 R56, R61). -/
theorem unchanged_setBytes (s : State) (a : Nat) (bs : List Byte) :
    Unchanged (bytesFrom a bs.length) s (s.setMem (Memory.setBytes s.mem a bs)) := by
  refine .of (fun _ _ => rfl) (fun k hk => ?byte) (by simp)
  case byte =>
    rw [State.setMem_mem, Memory.get_setBytes, if_neg (mt mem_bytesFrom.mpr hk)]

/-- The r-th of the bytes written at rising addresses (20 R56). -/
theorem Memory.get_setBytes_add (m : Memory) (a : Nat) {bs : List Byte} {r : Nat} (h : r < bs.length) :
    Memory.get (Memory.setBytes m a bs) (a + r) = bs[r] := by
  rw [Memory.get_setBytes, if_pos (by omega), Nat.add_sub_cancel_left, List.getD_eq_getElem _ _ h]

/-- A meaning that checks the bytes I to I + last before any change (20 R58, decision D11) completes when they are in memory, and
otherwise writes the record of the lowest address out of range and nothing else. -/
theorem exec_checkedAtI {s t : State} {i : Instr} {kind : OobKind} {last : Nat}
    (hexec : exec i s = (accessFault kind s.i (last + 1)).elim (.next t) fun c => .next (s.raise i c)) :
    (s.i.toNat + last ≤ 4095 → exec i s = .next t) ∧
    (s.i.toNat + last > 4095 →
      exec i s = .next { s with fault := some (recordOf s i (.outOfBounds kind (max s.i.toNat 4096))) }) := by
  constructor
  · intro hin
    rw [hexec, accessFault_inside (by omega), Option.elim_none]
  · intro hout
    rw [hexec, accessFault_outside (by omega) last.succ_pos, Option.elim_some, State.raise_eq]

end Sys2Proof.Machine
end

section
/-! PROOFS of the timer transfers, the key wait, the decimal digits and the register block (46_family_F.md). -/

namespace Sys2Proof.Machine

/-- Fx0A with a key pressed (46 R120): one write of Vx with the least pressed key, and the advance. -/
theorem exec_ldVxKey_of_leastKey {s : State} (x : RegIdx) {k : Fin 16} (h : leastKey s.key = some k) :
    exec (.ldVxKey x) s = .next (s.setV x (BitVec.ofNat 8 k.val)).advance := by
  simp only [exec, execLdVxKey, h]

/-- Fx0A with no key pressed (46 R120): PC is written back, so the state is as before. -/
theorem exec_ldVxKey_of_none {s : State} (x : RegIdx) (h : leastKey s.key = none) : exec (.ldVxKey x) s = .next s := by
  simp only [exec, execLdVxKey, h, State.setPc]

/-- Fx33 is the check of three bytes at I, then the write of the digits (46 R125). -/
theorem exec_ldBcd (s : State) (x : RegIdx) :
    exec (.ldBcd x) s = (accessFault .dataWrite s.i 3).elim
      (.next (s.setMem (Memory.setBytes s.mem s.i.toNat (decimalDigits (s.getV x)))).advance)
      fun c => .next (s.raise (.ldBcd x) c) := by
  cases h : accessFault .dataWrite s.i 3 <;> simp only [exec, execLdBcd, h, Option.elim]

/-- Fx55 is the check of x + 1 bytes at I, then the write of the block (46 R126). -/
theorem exec_storeRegs (s : State) (x : RegIdx) :
    exec (.storeRegs x) s = (accessFault .dataWrite s.i (x.val + 1)).elim
      (.next (s.setMem (Memory.setBytes s.mem s.i.toNat (s.regBlock x))).advance)
      fun c => .next (s.raise (.storeRegs x) c) := by
  cases h : accessFault .dataWrite s.i (x.val + 1) <;> simp only [exec, execStoreRegs, h, Option.elim]

/-- Fx65 is the check of x + 1 bytes at I, then the load of the block (46 R127). -/
theorem exec_loadRegs (s : State) (x : RegIdx) :
    exec (.loadRegs x) s = (accessFault .dataRead s.i (x.val + 1)).elim
      (.next (s.loadBlock x s.i.toNat).advance)
      fun c => .next (s.raise (.loadRegs x) c) := by
  cases h : accessFault .dataRead s.i (x.val + 1) <;> simp only [exec, execLoadRegs, h, Option.elim]

/-- The hundreds, tens and ones of a byte as numbers (46 R125). -/
theorem decimalDigits_map_toNat (b : Byte) :
    (decimalDigits b).map BitVec.toNat = [b.toNat / 100, b.toNat / 10 % 10, b.toNat % 10] := by
  have hb := b.isLt
  have hhundreds : b.toNat / 100 % 2 ^ 8 = b.toNat / 100 := by omega
  have htens : b.toNat / 10 % 10 % 2 ^ 8 = b.toNat / 10 % 10 := by omega
  have hones : b.toNat % 10 % 2 ^ 8 = b.toNat % 10 := by omega
  simp only [decimalDigits, List.map_cons, List.map_nil, BitVec.toNat_ofNat, hhundreds, htens, hones]

/-- The r-th digit that Fx33 writes, as a number (46 R125). -/
theorem toNat_get_setBytes_decimalDigits (m : Memory) (a : Nat) (b : Byte) {r : Nat} (h : r < 3) :
    (Memory.get (Memory.setBytes m a (decimalDigits b)) (a + r)).toNat =
      [b.toNat / 100, b.toNat / 10 % 10, b.toNat % 10][r] := by
  rw [Memory.get_setBytes_add m a h]
  exact (List.getElem_map BitVec.toNat).symm.trans (List.getElem_of_eq (decimalDigits_map_toNat b) h)

/-- Settles O47: Fx07 is one register write (`exec_setV_advance`), Fx15 and Fx18 are one write of their timer. -/
theorem timerMoves : Obligations.TimerMoves := by
  intro s x
  refine ⟨exec_setV_advance rfl, ?ldDtVx, ?ldStVx⟩
  case ldDtVx => exact ⟨(s.setDt (s.getV x)).advance, rfl, State.advance_pc _, rfl, (unchanged_setDt s _).advance⟩
  case ldStVx => exact ⟨(s.setSt (s.getV x)).advance, rfl, State.advance_pc _, rfl, (unchanged_setSt s _).advance⟩

/-- Settles O48: split on what `leastKey` answers; a key number fits a byte. -/
theorem keyWaitTakesLeastKeyOrRepeats : Obligations.KeyWaitTakesLeastKeyOrRepeats := by
  intro s x
  constructor
  · intro k hpressed hleast
    have hkey : leastKey s.key = some k := leastKey_eq_some.mpr ⟨hpressed, hleast⟩
    obtain ⟨t, ht, hpc, hreg, hframe⟩ := exec_setV_advance (exec_ldVxKey_of_leastKey x hkey)
    have hbyte : (BitVec.ofNat 8 k.val).toNat = k.val := Nat.mod_eq_of_lt (show k.val < 2 ^ 8 by omega)
    exact ⟨t, ht, hpc, hreg ▸ hbyte, hframe⟩
  · intro hnone
    exact exec_ldVxKey_of_none x (leastKey_eq_none.mpr hnone)

/-- Settles O49: Fx33 checks the range at I (`exec_checkedAtI`) and then writes the digits (`toNat_get_setBytes_decimalDigits`). -/
theorem bcdWritesThreeDigits : Obligations.BcdWritesThreeDigits := by
  intro s x
  obtain ⟨hinside, houtside⟩ := exec_checkedAtI (exec_ldBcd s x)
  refine ⟨fun hin => ?_, houtside⟩
  have hdigit {r : Nat} (hr : r < 3) := toNat_get_setBytes_decimalDigits s.mem s.i.toNat (s.getV x) hr
  exact ⟨_, hinside hin, State.advance_pc _, hdigit (r := 0) (by decide), hdigit (r := 1) (by decide),
    hdigit (r := 2) (by decide), (unchanged_setBytes s s.i.toNat (decimalDigits (s.getV x))).advance⟩

/-- Settles O50: Fx55 checks the range at I (`exec_checkedAtI`) and then writes the block V0 to Vx. -/
theorem blockStoreWritesRegisters : Obligations.BlockStoreWritesRegisters := by
  intro s x
  obtain ⟨hinside, houtside⟩ := exec_checkedAtI (exec_storeRegs s x)
  refine ⟨fun hin => ⟨_, hinside hin, State.advance_pc _, fun r hr => ?stored, ?frame⟩, houtside⟩
  case stored =>
    have hle : r.val ≤ x.val := hr
    rw [State.advance_mem, State.setMem_mem, State.get_store_regBlock, dif_pos (by omega)]
    simp only [Nat.add_sub_cancel_left]
  case frame =>
    rw [← s.regBlock_length x]
    exact (unchanged_setBytes s _ _).advance

/-- Settles O51: Fx65 checks the range at I (`exec_checkedAtI`) and then loads the block V0 to Vx (`State.getV_loadBlock`). -/
theorem blockLoadReadsRegisters : Obligations.BlockLoadReadsRegisters := by
  intro s x
  obtain ⟨hinside, houtside⟩ := exec_checkedAtI (exec_loadRegs s x)
  refine ⟨fun hin => ⟨_, hinside hin, State.advance_pc _, fun r hr => ?loaded, (unchanged_loadBlock s x _).advance⟩, houtside⟩
  case loaded =>
    rw [State.getV_advance, State.getV_loadBlock, if_pos hr]

end Sys2Proof.Machine
end

section
/-! SUPPORT. A word that decodes is the word of its instruction (30 R71, R73): one lemma per decoding procedure. -/

namespace Sys2Proof

/-- The fields of a word of format XY, whose last nibble is known, give the word back (30 R71). -/
theorem wordXYN_of_fields {op : Word} {d1 : BitVec 4} {n : Fin 16} (hd1 : (fieldD1 op).val = d1.toNat)
    (hn : (fieldN op).val = n.val) : wordXYN d1 (fieldX op) (fieldY op) n = op :=
  Fin.ext hn ▸ wordXYN_fields hd1

/-- The fields of a word of format X, whose low byte is known, give the word back (30 R71). -/
theorem wordXKK_of_fields {op : Word} {d1 : BitVec 4} {kk : Byte} (hd1 : (fieldD1 op).val = d1.toNat)
    (hkk : fieldKK op = kk) : wordXKK d1 (fieldX op) kk = op :=
  hkk ▸ wordXKK_fields hd1

/-- Family 0 (30 R73): the decoded word is one of three constants. -/
theorem encode_of_decodeFixed {op : Word} {i : Instr} (h : decodeFixed op = some i) : encode i = op := by
  unfold decodeFixed at h
  split_ifs at h with hnop hcls hret
  · cases h; exact hnop.symm
  · cases h; exact hcls.symm
  · cases h; exact hret.symm

/-- Family 8 (30 R73): the last nibble selects the instruction. -/
theorem encode_of_decodeAlu {op : Word} {i : Instr} (hd1 : (fieldD1 op).val = 0x8) (h : decodeAlu op = some i) :
    encode i = op := by
  unfold decodeAlu at h
  split at h <;> cases h
  all_goals next hn => exact wordXYN_of_fields hd1 hn

/-- Family E (30 R73, R75): the low byte selects the instruction. -/
theorem encode_of_decodeKey {op : Word} {i : Instr} (hd1 : (fieldD1 op).val = 0xE) (h : decodeKey op = some i) :
    encode i = op := by
  unfold decodeKey at h
  split_ifs at h with hskp hsknp
  · cases h; exact wordXKK_of_fields hd1 hskp
  · cases h; exact wordXKK_of_fields hd1 hsknp

/-- Family F (30 R73): the low byte selects the instruction. -/
theorem encode_of_decodeMisc {op : Word} {i : Instr} (hd1 : (fieldD1 op).val = 0xF) (h : decodeMisc op = some i) :
    encode i = op := by
  unfold decodeMisc at h
  split at h <;> cases h
  all_goals next hkk => exact wordXKK_of_fields hd1 (BitVec.eq_of_toNat_eq hkk)

/-- Decoding loses no bit of a word that decodes (30 R71, R73; for the `y` of 8xy6 and 8xyE, log entry 9). -/
theorem encode_of_decodeWord {op : Word} {i : Instr} (h : decodeWord op = some i) : encode i = op := by
  unfold decodeWord at h
  split at h
  case h_1 => exact encode_of_decodeFixed h
  case h_2 hd1 | h_3 hd1 | h_11 hd1 | h_12 hd1 => cases h; exact wordNNN_fields hd1
  case h_4 hd1 | h_5 hd1 | h_7 hd1 | h_8 hd1 | h_13 hd1 => cases h; exact wordXKK_fields hd1
  case h_6 hd1 | h_10 hd1 =>
    split_ifs at h with hn
    cases h; exact wordXYN_of_fields hd1 (congrArg Fin.val hn)
  case h_9 hd1 => exact encode_of_decodeAlu hd1 h
  case h_14 hd1 => cases h; exact wordXYN_fields hd1
  case h_15 hd1 => exact encode_of_decodeKey hd1 h
  case h_16 hd1 => exact encode_of_decodeMisc hd1 h
  case h_17 => cases h

/-- The word of two bytes as a number, big-endian (20 R54). -/
theorem wordOfBytes_toNat (hi lo : Byte) : (wordOfBytes hi lo).toNat = 256 * hi.toNat + lo.toNat :=
  (append_toNat hi lo).trans (by omega)

end Sys2Proof
end

section
/-! SUPPORT. What an instruction can do to the fault latch: leave it, or raise, which writes the record and nothing else (60 R133). -/

namespace Sys2Proof.Machine

/-- The instruction answers a next state, and in it either the latch is as before or the instruction's own fault record is all that
has changed (60 R133). -/
def CompletesOrRaises (i : Instr) (s : State) : Prop :=
  ∃ t, exec i s = .next t ∧ (t.fault = s.fault ∨ ∃ c, t = s.raise i c)

/-- Completing without a write of the latch. -/
theorem CompletesOrRaises.of_latch {i : Instr} {s t : State} (h : exec i s = .next t) (hlatch : t.fault = s.fault) :
    CompletesOrRaises i s :=
  ⟨t, h, .inl hlatch⟩

/-- Raising. -/
theorem CompletesOrRaises.of_raise {i : Instr} {s : State} {c : Cause} (h : exec i s = .next (s.raise i c)) :
    CompletesOrRaises i s :=
  ⟨_, h, .inr ⟨c, rfl⟩⟩

/-- A meaning that checks the range at I first (20 R58), split on whether the range lies in memory. -/
theorem CompletesOrRaises.of_checkedAtI {s t : State} {i : Instr} {kind : OobKind} {last : Nat}
    (hexec : exec i s = (accessFault kind s.i (last + 1)).elim (.next t) fun c => .next (s.raise i c))
    (hlatch : t.fault = s.fault) : CompletesOrRaises i s := by
  obtain ⟨hinside, houtside⟩ := exec_checkedAtI hexec
  by_cases hin : s.i.toNat + last ≤ 4095
  · exact .of_latch (hinside hin) hlatch
  · exact .of_raise (houtside (by omega))

/-- A meaning that is a skip on a key's state (45 R117, R118), split on whether Vx is an index. -/
theorem CompletesOrRaises.of_skipOnKey {s : State} {i : Instr} {x : RegIdx} {want : Bool}
    (hexec : exec i s = .next (s.skipOnKey i x want)) : CompletesOrRaises i s := by
  by_cases hlarge : (s.getV x).toNat > 15
  · exact .of_raise (exec_skipOnKey_of_large hexec hlarge)
  · obtain ⟨t, ht, -, hframe⟩ := exec_skipOnKey_of_index (k := ⟨(s.getV x).toNat, by omega⟩) hexec rfl
    exact .of_latch ht (hframe.latch (by simp))

/-- Every instruction completes or raises. Only the eight with a check of their own (60 R136) can raise. -/
theorem exec_completesOrRaises (i : Instr) (s : State) : CompletesOrRaises i s := by
  cases i with
  | ret =>
    by_cases hempty : s.sp.val = 0
    · exact .of_raise (exec_ret_underflow hempty)
    · exact .of_latch (exec_ret_of_pop (s.pop_eq hempty)) rfl
  | call nnn =>
    by_cases hfull : s.sp.val = 16
    · exact .of_raise (exec_call_overflow nnn hfull)
    · exact .of_latch (exec_call_of_push nnn (s.push_eq s.npc (by omega))) rfl
  | drw x y n =>
    by_cases hin : s.i.toNat + n.val ≤ 4095
    · exact .of_latch (exec_drw x y hin) ((unchanged_drawAt s x y _).advance.latch (by simp))
    · exact .of_raise (exec_drw_outside x y (by omega))
  | skp x => exact .of_skipOnKey (x := x) (want := true) rfl
  | sknp x => exact .of_skipOnKey (x := x) (want := false) rfl
  | ldVxKey x =>
    cases hkey : leastKey s.key with
    | none => exact .of_latch (exec_ldVxKey_of_none x hkey) rfl
    | some k => exact .of_latch (exec_ldVxKey_of_leastKey x hkey) rfl
  | ldBcd x => exact .of_checkedAtI (exec_ldBcd s x) rfl
  | storeRegs x => exact .of_checkedAtI (exec_storeRegs s x) rfl
  | loadRegs x => exact .of_checkedAtI (exec_loadRegs s x) rfl
  | _ => exact .of_latch rfl rfl

/-- A raised fault is in the latch, with the unadvanced PC and the given word, and nothing else has changed (60 R132, R133). -/
theorem State.takeFault_of_latch {s : State} {opcode : Option Word} {c : Cause} {r : FaultRecord}
    (h : (s.takeFault opcode c).fault = some r) :
    s.takeFault opcode c = { s with fault := some r } ∧ r.pc = s.pc ∧ r.opcode = opcode := by
  obtain rfl := Option.some.inj h
  exact ⟨rfl, rfl, rfl⟩

end Sys2Proof.Machine
end

section
/-! SUPPORT. The host's events (60 R141 to R150): what each does to the pieces of state it touches, and that only `STEP` and `RESET`
read or write the latch. -/

namespace Sys2Proof.Machine

/-- One timer's countdown as a number: natural subtraction is floored at 0 (60 R141). -/
theorem countDown_toNat (b : Byte) : (countDown b).toNat = b.toNat - 1 := by
  unfold countDown
  split
  · next hpos => exact BitVec.toNat_sub_of_le (BitVec.le_def.mpr hpos)
  · next hzero => omega

/-- A tick changes the two timers alone (60 R141). -/
theorem unchanged_timerTick (s : State) : Unchanged [.dt, .st] s s.timerTick :=
  .of (fun _ _ => rfl) (fun _ _ => rfl) (by simp)

/-- A latch after one latch is written (60 R144). -/
theorem State.getElem_key_setKey (s : State) (k j : Fin 16) (pressed : Bool) :
    (s.setKey k pressed).key[j.val] = if j = k then pressed else s.key[j.val] := by
  simp only [State.setKey_key, Vector.getElem_set, Fin.ext_iff, eq_comm]

/-- A write of one latch changes the keypad alone (60 R144). -/
theorem unchanged_setKey (s : State) (k : Fin 16) (pressed : Bool) : Unchanged [.keys] s (s.setKey k pressed) :=
  .of (fun _ _ => rfl) (fun _ _ => rfl) (by simp)

/-- The sound output is on exactly when ST is not 0 (60 R143). -/
theorem State.soundOn_iff (s : State) : s.soundOn = true ↔ s.st.toNat ≠ 0 :=
  bne_iff_ne.trans (not_congr BitVec.toNat_inj.symm)

/-- A faulted core's `STEP` changes nothing and reports the record in the latch again (60 R134). -/
theorem State.stepEvent_faulted {s : State} {r : FaultRecord} (h : s.fault = some r) : s.stepEvent = (s, .faulted r) := by
  simp only [State.stepEvent, step_faulted h, h]

/-- An event other than `STEP` and `RESET` does not read the latch and carries it over (60 R150). -/
theorem State.event_with_latch (font : Font) (s : State) (latch : Option FaultRecord) {e : Event} (hstep : e ≠ .step)
    (hreset : e ≠ .reset) :
    { s with fault := latch }.event font e = ({ (s.event font e).1 with fault := latch }, (s.event font e).2) := by
  cases e with
  | reset => exact absurd rfl hreset
  | step => exact absurd rfl hstep
  | timerTick => rfl
  | key k pressed => rfl
  | load data =>
    by_cases hfits : imageFits data = true
    · simp only [State.event, State.load, if_pos hfits, State.setMem]
    · simp only [State.event, State.load, if_neg hfits]

end Sys2Proof.Machine
end

section
/-! PROOFS of the exceptions family (60_exceptions.md): the step's order of checks, precise faults, and the host's events. -/

namespace Sys2Proof.Machine

/-- Settles O10: of the cases of `step_cases` an unfaulted core has three, and in each the new record is that of a fault taken in the
old state (`State.takeFault_of_latch`); an instruction's record gives the word fetched, since decoding loses no bit of it
(`encode_of_decodeWord`). -/
theorem faultingStepChangesOnlyTheLatch : Obligations.FaultingStepChangesOnlyTheLatch := by
  intro s t r hclear hstep hlatch
  rcases step_cases hstep with ⟨hset, -⟩ | ⟨-, hpc, rfl⟩ | ⟨op, -, -, hfetch, -, rfl⟩ | ⟨op, i, -, -, hfetch, hdec, hexec⟩
  · exact absurd hclear hset
  · rw [State.fetch_eq_none.mpr hpc]
    exact State.takeFault_of_latch hlatch
  · rw [hfetch]
    exact State.takeFault_of_latch hlatch
  · obtain ⟨u, hu, hcases⟩ := exec_completesOrRaises i s
    obtain rfl : u = t := Host.Outcome.next.inj (hu.symm.trans hexec)
    rcases hcases with hkept | ⟨c, rfl⟩
    · rw [hlatch, hclear] at hkept
      cases hkept
    · rw [hfetch, ← encode_of_decodeWord hdec]
      exact State.takeFault_of_latch hlatch

/-- Settles O7: the four branches of the step, the last two on the word that the two bytes at PC make (`wordOfBytes_toNat`). -/
theorem stepEventInOrder : Obligations.StepEventInOrder := by
  intro s
  refine ⟨fun r hset => step_faulted hset, fun hclear hpc => ?fetch, fun hclear hpc op hop => ?decode⟩
  case fetch => exact step_fetchFault hclear (State.fetch_eq_none.mpr hpc)
  case decode =>
    have hword : op = wordOfBytes (Memory.get s.mem s.pc.toNat) (Memory.get s.mem (s.pc.toNat + 1)) :=
      BitVec.eq_of_toNat_eq (hop.trans (wordOfBytes_toNat _ _).symm)
    have hfetch : s.fetch = some op := hword ▸ State.fetch_eq hpc
    exact ⟨fun hdec => step_unknownOpcode hclear hfetch hdec, fun i hdec => step_exec hclear hfetch hdec⟩

/-- Settles O12: a faulted state is the unfaulted one with the record put back, and the events other than `STEP` and `RESET` carry the
latch over (`State.event_with_latch`). -/
theorem eventsWhileFaulted : Obligations.EventsWhileFaulted := by
  intro font s r hset
  refine ⟨State.stepEvent_faulted hset, fun e hstep hreset => ?others, rfl, rfl, rfl, rfl⟩
  case others =>
    have hcarried := State.event_with_latch font { s with fault := none } (some r) hstep hreset
    have hback : { s with fault := some r } = s := hset ▸ rfl
    rw [hback] at hcarried
    rw [hcarried]
    exact ⟨rfl, rfl⟩

/-- Settles O24: each timer is counted down by its own value (`countDown_toNat`). -/
theorem timerTickCountsDown : Obligations.TimerTickCountsDown := by
  intro font s
  exact ⟨s.timerTick, rfl, countDown_toNat s.dt, countDown_toNat s.st, rfl, unchanged_timerTick s⟩

/-- Settles O25: the event is one write of one latch. -/
theorem keyEventSetsOneLatch : Obligations.KeyEventSetsOneLatch := by
  intro font s k pressed
  exact ⟨s.setKey k pressed, rfl, fun j => s.getElem_key_setKey k j pressed, rfl, unchanged_setKey s k pressed⟩

/-- Settles O27: the view is the framebuffer itself, which is row-major (`Framebuffer.getElem_eq_cell`). -/
theorem displayAndSoundOutputs : Obligations.DisplayAndSoundOutputs := by
  intro s
  exact ⟨Framebuffer.getElem_eq_cell s.fb, s.soundOn_iff⟩

end Sys2Proof.Machine
end

section
/-! PROOFS of the reset family (70_reset_and_hazards.md): power-on, reset and load. -/

namespace Sys2Proof.Machine

/-- The general registers at power-on (10 R38, decision D2). -/
theorem State.getV_powerOn (font : Font) (x : RegIdx) : (State.powerOn font).getV x = 0 :=
  Vector.getElem_replicate x.isLt

/-- The stack slots at power-on (10 R38, decision D3). -/
theorem State.getElem_stack_powerOn (font : Font) (k : Fin 16) : (State.powerOn font).stack[k.val] = 0 :=
  Vector.getElem_replicate k.isLt

/-- The key latches at power-on (10 R38, decision D4). -/
theorem State.getElem_key_powerOn (font : Font) (k : Fin 16) : (State.powerOn font).key[k.val] = false :=
  Vector.getElem_replicate k.isLt

/-- Reset forgets the state before it, but for the place in the random input, which it keeps (70 R161). -/
theorem State.resetEvent_resetEvent (font : Font) (s : State) : (s.resetEvent font).resetEvent font = s.resetEvent font :=
  rfl

/-- An image fits exactly when it has at most 3584 bytes (70 R163). -/
theorem imageFits_iff {data : List Byte} : imageFits data = true ↔ data.length ≤ 3584 := by
  simp only [imageFits, Config.progBase, Config.memSize, decide_eq_true_eq]
  omega

/-- A load that fits (70 R163). -/
theorem State.load_of_fits (s : State) {data : List Byte} (h : data.length ≤ 3584) :
    s.load data = (s.setMem (Memory.setBytes s.mem 0x200 data), .done) :=
  if_pos (imageFits_iff.mpr h)

/-- A load that is too long is refused whole (70 R164, decision D25). -/
theorem State.load_of_too_long (s : State) {data : List Byte} (h : data.length > 3584) :
    s.load data = (s, .loadRefused .load (0x200 + data.length)) :=
  if_neg (mt imageFits_iff.mp (Nat.not_le_of_gt h))

/-- Settles O22: memory is `Memory.get_powerOn`, split at the end of FONT; the framebuffer is the cleared one
(`Framebuffer.cell_clear`). -/
theorem powerOnValues : Obligations.PowerOnValues := by
  intro font
  refine ⟨rfl, rfl, rfl, rfl, rfl, rfl, State.getV_powerOn font, State.getElem_stack_powerOn font,
    State.getElem_key_powerOn font, Framebuffer.cell_clear, fun a ha => ?font, fun a ha _ => ?zero⟩
  case font => rw [Memory.get_powerOn, dif_pos ha]
  case zero => rw [Memory.get_powerOn, dif_neg (Nat.not_lt_of_ge ha)]

/-- Settles O23: the reset state is the power-on state but for `rndIndex`, which reset keeps, so a second reset gives it again
(`State.resetEvent_resetEvent`). -/
theorem resetIsPowerOn : Obligations.ResetIsPowerOn := by
  intro font s
  exact ⟨rfl, rfl, s.resetEvent_resetEvent font⟩

/-- Settles O26: split on the size of the image; one that fits is one write of its bytes from 0x200 up (`State.load_of_fits`). -/
theorem loadCopiesImageOrIsRefused : Obligations.LoadCopiesImageOrIsRefused := by
  intro font s data
  refine ⟨fun hfits => ?copied, s.load_of_too_long⟩
  case copied =>
    exact ⟨_, s.load_of_fits hfits, fun k hk => Memory.get_setBytes_add s.mem 0x200 hk, rfl, unchanged_setBytes s 0x200 data⟩

end Sys2Proof.Machine
end

section
/-! SUPPORT. The decoder on the words the encoder builds (30 R71 to R73), and on the bytes of a word (20 R54). -/

namespace Sys2Proof

/-- Decoding the word of an instruction gives the instruction back: the fields of the word are the operands, and the fixed fields
select the arm (30 R71, R73). -/
theorem decodeWord_encode (i : Instr) : decodeWord (encode i) = some i := by
  cases i with
  | nop | cls | ret => rfl
  | jp nnn | call nnn | ldI nnn | jpV0 nnn => simp [encode, decodeWord, fields_wordNNN]
  | seByte x kk | sneByte x kk | ldByte x kk | addByte x kk | rnd x kk => simp [encode, decodeWord, fields_wordXKK]
  | seReg x y | sneReg x y | drw x y n => simp [encode, decodeWord, fields_wordXYN]
  | ldReg x y | orReg x y | andReg x y | xorReg x y | addReg x y | subReg x y | shr x y | subnReg x y | shl x y =>
    simp [encode, decodeWord, decodeAlu, fields_wordXYN]
  | skp x | sknp x => simp [encode, decodeWord, decodeKey, fields_wordXKK]
  | ldVxDt x | ldVxKey x | ldDtVx x | ldStVx x | addI x | ldFont x | ldBcd x | storeRegs x | loadRegs x =>
    simp [encode, decodeWord, decodeMisc, fields_wordXKK]

/-- Decoding a run of bytes decodes the word of the first two (30 R70). -/
theorem decodeBytes_of_decodeWord {hi lo : Byte} {i : Instr} (h : decodeWord (wordOfBytes hi lo) = some i) (rest : List Byte) :
    decodeBytes (hi :: lo :: rest) = .instr i rest := by
  simp only [decodeBytes, h]

/-- Only the word of the first two bytes is decoded (30 R70). -/
theorem decodeWord_of_decodeBytes {hi lo : Byte} {i : Instr} {bytes rest : List Byte}
    (h : decodeBytes (hi :: lo :: bytes) = .instr i rest) : decodeWord (wordOfBytes hi lo) = some i := by
  cases hdec : decodeWord (wordOfBytes hi lo) with
  | none => simp [decodeBytes, hdec] at h
  | some j => rw [decodeBytes_of_decodeWord hdec] at h; rw [(Decoded.instr.inj h).1]

end Sys2Proof
end

section
/-! SUPPORT. The opcode map (30 R76): what its masks keep of a word, and that no two of its rows select one word. -/

namespace Sys2Proof

/-- Every word is what format NNN builds from its own fields. -/
theorem wordNNN_own_fields (op : Word) : wordNNN (nib (fieldD1 op)) (fieldNNN op) = op := wordNNN_fields rfl

/-- Every word is what format XKK builds from its own fields. -/
theorem wordXKK_own_fields (op : Word) : wordXKK (nib (fieldD1 op)) (fieldX op) (fieldKK op) = op := wordXKK_fields rfl

/-- Every word is what format XYN builds from its own fields. -/
theorem wordXYN_own_fields (op : Word) : wordXYN (nib (fieldD1 op)) (fieldX op) (fieldY op) (fieldN op) = op :=
  wordXYN_fields rfl

theorem fieldD1_val (op : Word) : (fieldD1 op).val = op.toNat / 4096 := by
  have hop := op.isLt
  rw [fieldD1, nibble_val]
  omega

theorem fieldN_val (op : Word) : (fieldN op).val = op.toNat % 16 := by
  rw [fieldN, nibble_val]
  omega

/-- What the mask of the formats NNN, XKK and XYN leaves of a word: d1. -/
theorem mask_F000_toNat (op : Word) : (op &&& 0xF000).toNat = op.toNat / 4096 * 4096 := by
  conv_lhs => rw [← wordNNN_own_fields op]
  rw [wordNNN_mask, wordNNN_toNat, nib_toNat, fieldD1_val]
  simp

/-- What the mask of format XY leaves of a word: d1 and d4. -/
theorem mask_F00F_toNat (op : Word) : (op &&& 0xF00F).toNat = op.toNat / 4096 * 4096 + op.toNat % 16 := by
  conv_lhs => rw [← wordXYN_own_fields op]
  rw [wordXY_mask, wordXYN_toNat, nib_toNat, fieldD1_val, fieldN_val]
  simp

/-- What the mask of format X leaves of a word: d1 and the low byte. -/
theorem mask_F0FF_toNat (op : Word) : (op &&& 0xF0FF).toNat = op.toNat / 4096 * 4096 + op.toNat % 256 := by
  conv_lhs => rw [← wordXKK_own_fields op]
  rw [wordX_mask, wordXKK_toNat, nib_toNat, fieldD1_val, fieldKK_toNat]
  simp

theorem OpcodeRow.selects_iff {r : OpcodeRow} {op : Word} : r.selects op = true ↔ op &&& r.mask = r.pattern := beq_iff_eq

open Laws.MatchesRow in
/-- The word of an instruction selects the instruction's own row (30 R76). -/
theorem row_selects_encode : ∀ i : Instr, i.row.selects (encode i) = true
  | .nop => nop | .cls => cls | .ret => ret | .jp _ => jp _ | .call _ => call _
  | .seByte _ _ => seByte _ _ | .sneByte _ _ => sneByte _ _ | .seReg _ _ => seReg _ _
  | .ldByte _ _ => ldByte _ _ | .addByte _ _ => addByte _ _
  | .ldReg _ _ => ldReg _ _ | .orReg _ _ => orReg _ _ | .andReg _ _ => andReg _ _ | .xorReg _ _ => xorReg _ _
  | .addReg _ _ => addReg _ _ | .subReg _ _ => subReg _ _ | .shr _ _ => shr _ _ | .subnReg _ _ => subnReg _ _
  | .shl _ _ => shl _ _ | .sneReg _ _ => sneReg _ _
  | .ldI _ => ldI _ | .jpV0 _ => jpV0 _ | .rnd _ _ => rnd _ _ | .drw _ _ _ => drw _ _ _
  | .skp _ => skp _ | .sknp _ => sknp _
  | .ldVxDt _ => ldVxDt _ | .ldVxKey _ => ldVxKey _ | .ldDtVx _ => ldDtVx _ | .ldStVx _ => ldStVx _ | .addI _ => addI _
  | .ldFont _ => ldFont _ | .ldBcd _ => ldBcd _ | .storeRegs _ => storeRegs _ | .loadRegs _ => loadRegs _

/-- A word that decodes selects the row of its instruction (30 R73, R76). -/
theorem selects_of_decodeWord {op : Word} {i : Instr} (h : decodeWord op = some i) : i.row.selects op = true :=
  encode_of_decodeWord h ▸ row_selects_encode i

/-- Two rows of the map disagree on a bit that both masks keep (30 R76). -/
theorem opcodeMap_pairwise_disjoint :
    opcodeMap.Pairwise fun r r' => r.pattern &&& r'.mask ≠ r'.pattern &&& r.mask := by
  decide

/-- So a word selects at most one row of the map (30 R76). -/
theorem opcodeMap_selects_unique {r r' : OpcodeRow} {op : Word} (hr : r ∈ opcodeMap) (hr' : r' ∈ opcodeMap)
    (hsel : r.selects op = true) (hsel' : r'.selects op = true) : r = r' := by
  by_contra hne
  have hsymm : Std.Symm fun r r' : OpcodeRow => r.pattern &&& r'.mask ≠ r'.pattern &&& r.mask := ⟨fun _ _ => Ne.symm⟩
  refine opcodeMap_pairwise_disjoint.forall hr hr' hne ?_
  rw [← OpcodeRow.selects_iff.mp hsel, ← OpcodeRow.selects_iff.mp hsel', BitVec.and_assoc, BitVec.and_assoc,
    BitVec.and_comm r.mask]

end Sys2Proof
end

section
/-! SUPPORT. The illegal words (30 R77): what each decoding procedure rejects, and that no row of the map selects them. -/

namespace Sys2Proof.Machine

/-- Family 0 rejects all but its three words (30 R73). -/
theorem decodeFixed_eq_none {op : Word} (h : decodeFixed op = none) : op.toNat ∉ [0x000, 0x0E0, 0x0EE] := by
  unfold decodeFixed at h
  split_ifs at h with hnop hcls hret
  rw [BitVec.toNat_eq] at hnop hcls hret
  simp only [List.mem_cons, List.not_mem_nil, or_false]
  tauto

/-- Family 8 rejects the last nibbles that select no operation (30 R73). -/
theorem decodeAlu_eq_none {op : Word} (h : decodeAlu op = none) :
    (fieldN op).val ∈ [0x8, 0x9, 0xA, 0xB, 0xC, 0xD, 0xF] := by
  unfold decodeAlu at h
  have hlt := (fieldN op).isLt
  split at h <;> cases h
  simp only [List.mem_cons, List.not_mem_nil, or_false, imp_false] at *
  omega

/-- Family E rejects all low bytes but two (30 R73). -/
theorem decodeKey_eq_none {op : Word} (h : decodeKey op = none) : (fieldKK op).toNat ∉ [0x9E, 0xA1] := by
  unfold decodeKey at h
  split_ifs at h with hskp hsknp
  rw [BitVec.toNat_eq] at hskp hsknp
  simp only [List.mem_cons, List.not_mem_nil, or_false]
  tauto

/-- Family F rejects all low bytes but nine (30 R73). -/
theorem decodeMisc_eq_none {op : Word} (h : decodeMisc op = none) :
    (fieldKK op).toNat ∉ [0x07, 0x0A, 0x15, 0x18, 0x1E, 0x29, 0x33, 0x55, 0x65] := by
  unfold decodeMisc at h
  split at h <;> cases h
  simp only [List.mem_cons, List.not_mem_nil, or_false]
  tauto

/-- A word that does not decode lies in one of the classes of 30 R77. -/
theorem illegalClass_of_decodeWord {op : Word} (h : decodeWord op = none) : illegalClass op := by
  have hop := op.isLt
  unfold decodeWord at h
  simp only [illegalClass]
  rw [← fieldD1_val, ← fieldN_val, ← fieldKK_toNat]
  split at h
  case h_1 hd1 =>
    have hop : op.toNat % 4096 = op.toNat := by rw [fieldD1_val] at hd1; omega
    rw [hop]
    exact .inl ⟨hd1, decodeFixed_eq_none h⟩
  case h_6 hd1 =>
    split_ifs at h with hn
    exact .inr (.inl ⟨hd1, fun h0 => hn (Fin.ext h0)⟩)
  case h_9 hd1 => exact .inr (.inr (.inl ⟨hd1, decodeAlu_eq_none h⟩))
  case h_10 hd1 =>
    split_ifs at h with hn
    exact .inr (.inr (.inr (.inl ⟨hd1, fun h0 => hn (Fin.ext h0)⟩)))
  case h_15 hd1 => exact .inr (.inr (.inr (.inr (.inl ⟨hd1, decodeKey_eq_none h⟩))))
  case h_16 hd1 => exact .inr (.inr (.inr (.inr (.inr ⟨hd1, decodeMisc_eq_none h⟩))))
  case h_17 => 
    have hlt := (fieldD1 op).isLt
    simp only [imp_false] at *
    omega
  all_goals cases h

/-- A word that selects the row of an instruction is in no class of 30 R77: the row's mask keeps d1 and what else the class of that d1
speaks of. -/
theorem not_illegalClass_of_selects {op : Word} (i : Instr) (h : i.row.selects op = true) : ¬ illegalClass op := by
  intro hclass
  have hmask : (op &&& i.row.mask).toNat = i.row.pattern.toNat := congrArg _ (OpcodeRow.selects_iff.mp h)
  simp only [illegalClass, List.mem_cons, List.not_mem_nil, or_false] at hclass
  cases i with
  | nop | cls | ret =>
    have hword := (congrArg BitVec.toNat (BitVec.and_allOnes (x := op))).symm.trans hmask
    simp only [Instr.row, BitVec.reduceToNat] at hword
    omega
  | jp _ | call _ | seByte _ _ | sneByte _ _ | ldByte _ _ | addByte _ _ | ldI _ | jpV0 _ | rnd _ _ | drw _ _ _ =>
    have hd1 := (mask_F000_toNat op).symm.trans hmask
    simp only [Instr.row, BitVec.reduceToNat] at hd1
    omega
  | seReg _ _ | sneReg _ _ | ldReg _ _ | orReg _ _ | andReg _ _ | xorReg _ _ | addReg _ _ | subReg _ _ | shr _ _
  | subnReg _ _ | shl _ _ =>
    have hd1d4 := (mask_F00F_toNat op).symm.trans hmask
    simp only [Instr.row, BitVec.reduceToNat] at hd1d4
    omega
  | skp _ | sknp _ | ldVxDt _ | ldVxKey _ | ldDtVx _ | ldStVx _ | addI _ | ldFont _ | ldBcd _ | storeRegs _ | loadRegs _ =>
    have hd1low := (mask_F0FF_toNat op).symm.trans hmask
    simp only [Instr.row, BitVec.reduceToNat] at hd1low
    omega

/-- A word is legal exactly when it selects the row of some instruction (30 R77). -/
theorem legalWord_iff {op : Word} : legalWord op = true ↔ ∃ i : Instr, i.row.selects op = true := by
  unfold legalWord
  rw [List.any_eq_true]
  constructor
  · rintro ⟨r, hr, hsel⟩
    obtain ⟨i, -, rfl⟩ := List.mem_map.mp hr
    exact ⟨i, hsel⟩
  · rintro ⟨i, hsel⟩
    exact ⟨i.row, i.row_mem, hsel⟩

end Sys2Proof.Machine
end

section
/-! PROOFS of the encoding family (30_encoding.md): the two round trips, the opcode map and the illegal words. -/

namespace Sys2Proof.Machine

/-- Settles O1: the word by `decodeWord_encode`, and the bytes are the two of that word, high byte first (`wordOfBytes_bytes`). -/
theorem decodeEncodeRoundTrip : Obligations.DecodeEncodeRoundTrip := by
  intro i
  refine ⟨decodeWord_encode i, fun rest => decodeBytes_of_decodeWord ?_ rest⟩
  rw [wordOfBytes_bytes, decodeWord_encode]

/-- Settles O2: decoding loses no bit of a word that decodes. -/
theorem encodeDecodeRoundTrip : Obligations.EncodeDecodeRoundTrip :=
  fun _ _ => encode_of_decodeWord

/-- Settles O3: the word selects the row of its instruction, and no word selects two rows. -/
theorem decodedWordSelectsItsRowOnly : Obligations.DecodedWordSelectsItsRowOnly := by
  intro op i hdec
  have hown := selects_of_decodeWord hdec
  refine ⟨i.row_mem, fun r hr => ⟨fun hsel => ?unique, fun heq => heq ▸ hown⟩⟩
  case unique => exact opcodeMap_selects_unique hr i.row_mem hsel hown

/-- Settles O4, as a cycle: a word that does not decode lies in a class, a word of a class selects no row, and a word that selects no row
does not decode, since it would select the row of its instruction. -/
theorem unknownWordsAreTheIllegalClasses : Obligations.UnknownWordsAreTheIllegalClasses := by
  intro op
  have hclass : illegalClass op → legalWord op = false := by
    intro hillegal
    rw [← Bool.not_eq_true, legalWord_iff]
    rintro ⟨i, hsel⟩
    exact not_illegalClass_of_selects i hsel hillegal
  have hdecode : legalWord op = false → decodeWord op = none := by
    intro hillegal
    rw [← Bool.not_eq_true, legalWord_iff] at hillegal
    by_contra hne
    obtain ⟨i, hdec⟩ := Option.ne_none_iff_exists'.mp hne
    exact hillegal ⟨i, selects_of_decodeWord hdec⟩
  exact ⟨⟨hclass ∘ illegalClass_of_decodeWord, hdecode⟩, illegalClass_of_decodeWord ∘ hdecode, hclass⟩

/-- Settles O5, by running the decoder on each word. -/
theorem sampleWordsDecode : Obligations.SampleWordsDecode := by
  unfold Obligations.SampleWordsDecode
  decide

end Sys2Proof.Machine
end

section
/-! SUPPORT. What an instruction can do, said once: it raises the fault of the table (60 R136), or it ends in its completed state. -/

namespace Sys2Proof.Machine

/-- Where an instruction whose check passes ends. The nine arms written out are those of the instructions with a check of their own and of
the key wait, as total functions of the state; every other instruction ends where `exec` says. `exec_eq_raise_or_completed` ties
this to `exec`. -/
def State.completed (s : State) : Instr → State
  | .ret => { s with sp := ⟨s.sp.val - 1, by omega⟩, pc := s.stack[s.sp.val - 1]?.getD 0 }
  | .call nnn =>
    { s with stack := s.stack.setIfInBounds s.sp.val s.npc, sp := Fin.ofNat 17 (s.sp.val + 1), pc := addrOf nnn }
  | .drw x y n => (s.drawAt x y (n.val + 1)).advance
  | .skp x => s.skipIf (s.key[(s.getV x).toNat]?.getD false == true)
  | .sknp x => s.skipIf (s.key[(s.getV x).toNat]?.getD false == false)
  | .ldVxKey x =>
    { s with
      v := (leastKey s.key).elim s.v fun k => s.v.set x.val (BitVec.ofNat 8 k.val)
      pc := (leastKey s.key).elim s.pc fun _ => s.npc }
  | .ldBcd x => (s.setMem (Memory.setBytes s.mem s.i.toNat (decimalDigits (s.getV x)))).advance
  | .storeRegs x => (s.setMem (Memory.setBytes s.mem s.i.toNat (s.regBlock x))).advance
  | .loadRegs x => (s.loadBlock x s.i.toNat).advance
  | i =>
    match exec i s with
    | .next t => t
    | _ => s

/-- The check of the bytes I to I + last (20 R58) is the condition of the table (60 R136). -/
theorem accessFault_eq_ite (kind : OobKind) (base : Word) (last : Nat) :
    accessFault kind base (last + 1) =
      if base.toNat + last > 4095 then some (.outOfBounds kind (max base.toNat 4096)) else none := by
  split
  · exact accessFault_outside (by omega) last.succ_pos
  · exact accessFault_inside (by omega)

/-- A bounded write of a slot is the plain one (10 R27). -/
theorem setIfInBounds_eq_set {α : Type} {n k : Nat} (slots : Vector α n) (w : α) (h : k < n) :
    slots.setIfInBounds k w = slots.set k w := by
  ext j hj
  rw [Vector.getElem_setIfInBounds, Vector.getElem_set]

/-- The two skips on a key's state (45 R117, R118), split on whether Vx is an index. -/
theorem exec_skipOnKey {s : State} {i : Instr} {x : RegIdx} {want : Bool}
    (hexec : exec i s = .next (s.skipOnKey i x want)) :
    exec i s = (if (s.getV x).toNat > 15 then some (.outOfBounds .key (s.getV x).toNat) else none : Option Cause).elim
      (.next (s.skipIf (s.key[(s.getV x).toNat]?.getD false == want))) fun c => .next (s.raise i c) := by
  split
  next hlarge => exact exec_skipOnKey_of_large hexec hlarge
  next hindex =>
    have hlt : (s.getV x).toNat < 16 := by omega
    rw [hexec, State.skipOnKey_of_index (k := ⟨(s.getV x).toNat, hlt⟩) rfl, Vector.getElem?_eq_getElem hlt]
    rfl

/-- An instruction raises when its condition of the table holds, and otherwise ends in its completed state. Only the eight instructions
with a check of their own can raise (60 R136). -/
theorem exec_eq_raise_or_completed (i : Instr) (s : State) :
    exec i s = (faultCondition s i).elim (.next (s.completed i)) fun c => .next (s.raise i c) := by
  cases i with
  | ret =>
    by_cases hempty : s.sp.val = 0
    · simp only [faultCondition, if_pos hempty, Option.elim_some, exec_ret_underflow hempty]
    · have hlt : s.sp.val - 1 < 16 := by omega
      simp only [faultCondition, if_neg hempty, Option.elim_none, exec_ret_of_pop (s.pop_eq hempty), State.completed,
        Vector.getElem?_eq_getElem hlt, Option.getD_some, State.setPc]
  | call nnn =>
    by_cases hfull : s.sp.val = 16
    · simp only [faultCondition, if_pos hfull, Option.elim_some, exec_call_overflow nnn hfull]
    · have hfree : s.sp.val < 16 := by omega
      have hsp : Fin.ofNat 17 (s.sp.val + 1) = ⟨s.sp.val + 1, by omega⟩ := Fin.ext (Nat.mod_eq_of_lt (by omega))
      simp only [faultCondition, if_neg hfull, Option.elim_none, exec_call_of_push nnn (s.push_eq s.npc hfree),
        State.completed, hsp, State.setPc, setIfInBounds_eq_set _ _ hfree]
  | drw x y n =>
    by_cases hout : s.i.toNat + n.val > 4095
    · simp only [faultCondition, if_pos hout, Option.elim_some, exec_drw_outside x y hout]
    · simp only [faultCondition, if_neg hout, Option.elim_none, exec_drw x y (Nat.le_of_not_gt hout), State.completed]
  | skp x => exact exec_skipOnKey rfl
  | sknp x => exact exec_skipOnKey rfl
  | ldVxKey x =>
    cases hkey : leastKey s.key with
    | none => simp only [exec_ldVxKey_of_none x hkey, State.completed, hkey]; rfl
    | some k => simp only [exec_ldVxKey_of_leastKey x hkey, State.completed, hkey]; rfl
  | ldBcd x => exact (exec_ldBcd s x).trans (by rw [accessFault_eq_ite]; rfl)
  | storeRegs x => exact (exec_storeRegs s x).trans (by rw [accessFault_eq_ite]; rfl)
  | loadRegs x => exact (exec_loadRegs s x).trans (by rw [accessFault_eq_ite]; rfl)
  | _ => rfl

/-- An instruction whose condition holds raises (60 R136). -/
theorem exec_of_faultCondition {s : State} {i : Instr} {c : Cause} (h : faultCondition s i = some c) :
    exec i s = .next (s.raise i c) := by
  rw [exec_eq_raise_or_completed i s, h, Option.elim_some]

/-- An instruction whose condition does not hold completes (60 R136). -/
theorem exec_of_noFault {s : State} {i : Instr} (h : faultCondition s i = none) : exec i s = .next (s.completed i) := by
  rw [exec_eq_raise_or_completed i s, h, Option.elim_none]

/-- Every instruction answers a next state. -/
theorem exec_next (i : Instr) (s : State) : ∃ t, exec i s = .next t := by
  cases h : faultCondition s i with
  | none => exact ⟨_, exec_of_noFault h⟩
  | some c => exact ⟨_, exec_of_faultCondition h⟩

/-- Everything an instruction can do: raise, or complete. -/
theorem exec_cases {i : Instr} {s t : State} (h : exec i s = .next t) :
    (∃ c, faultCondition s i = some c ∧ t = s.raise i c) ∨ (faultCondition s i = none ∧ t = s.completed i) := by
  cases hcond : faultCondition s i with
  | none => exact .inr ⟨rfl, Host.Outcome.next.inj (h.symm.trans (exec_of_noFault hcond))⟩
  | some c => exact .inl ⟨c, rfl, Host.Outcome.next.inj (h.symm.trans (exec_of_faultCondition hcond))⟩

end Sys2Proof.Machine
end

section
/-! SUPPORT. The pieces of state an instruction may write (10 R37), and the frame that says so. -/

namespace Sys2Proof.Machine

/-- The pieces of state outside the general registers that an instruction may write (the write columns of 10 R37); the fault latch, which
the table of 60 R136 speaks of, is left out. -/
def otherWrites (s : State) : Instr → List Part
  | .cls | .drw _ _ _ => [.cells]
  | .ret => [.sp]
  | .call _ => [.slots, .sp]
  | .ldI _ | .addI _ | .ldFont _ => [.i]
  | .rnd _ _ => [.rnd]
  | .ldDtVx _ => [.dt]
  | .ldStVx _ => [.st]
  | .ldBcd _ => bytesFrom s.i.toNat 3
  | .storeRegs x => bytesFrom s.i.toNat (x.val + 1)
  | _ => []

/-- Everything an instruction may write: its destinations and what else the access matrix names (10 R37). -/
def writes (s : State) (i : Instr) : List Part := (destsOf i).map .reg ++ otherWrites s i

/-- Which registers an instruction may write. -/
theorem reg_mem_writes {s : State} {i : Instr} {r : RegIdx} : Part.reg r ∈ writes s i ↔ r ∈ destsOf i := by
  cases i <;> simp [writes, otherWrites, bytesFrom]

theorem keys_not_mem_writes {s : State} {i : Instr} : Part.keys ∉ writes s i := by
  cases i <;> simp [writes, otherWrites, bytesFrom]

theorem latch_not_mem_writes {s : State} {i : Instr} : Part.latch ∉ writes s i := by
  cases i <;> simp [writes, otherWrites, bytesFrom]

theorem dt_mem_writes {s : State} {i : Instr} (h : Part.dt ∈ writes s i) : ∃ x, i = .ldDtVx x := by
  cases i <;> simp [writes, otherWrites, bytesFrom] at h ⊢

theorem st_mem_writes {s : State} {i : Instr} (h : Part.st ∈ writes s i) : ∃ x, i = .ldStVx x := by
  cases i <;> simp [writes, otherWrites, bytesFrom] at h ⊢

theorem cells_mem_writes {s : State} {i : Instr} (h : Part.cells ∈ writes s i) : i = .cls ∨ ∃ x y n, i = .drw x y n := by
  cases i <;> simp [writes, otherWrites, bytesFrom] at h ⊢

theorem slots_mem_writes {s : State} {i : Instr} (h : Part.slots ∈ writes s i) : ∃ nnn, i = .call nnn := by
  cases i <;> simp [writes, otherWrites, bytesFrom] at h ⊢

theorem sp_mem_writes {s : State} {i : Instr} (h : Part.sp ∈ writes s i) : i = .ret ∨ ∃ nnn, i = .call nnn := by
  cases i <;> simp [writes, otherWrites, bytesFrom] at h ⊢

theorem i_mem_writes {s : State} {i : Instr} (h : Part.i ∈ writes s i) :
    (∃ nnn, i = .ldI nnn) ∨ (∃ x, i = .addI x) ∨ ∃ x, i = .ldFont x := by
  cases i <;> simp [writes, otherWrites, bytesFrom] at h ⊢

theorem rnd_mem_writes {s : State} {i : Instr} (h : Part.rnd ∈ writes s i) : ∃ x kk, i = .rnd x kk := by
  cases i <;> simp [writes, otherWrites, bytesFrom] at h ⊢

theorem byte_mem_writes {s : State} {i : Instr} {a : Nat} (h : Part.byte a ∈ writes s i) :
    (∃ x, i = .ldBcd x) ∨ ∃ x, i = .storeRegs x := by
  cases i <;> simp [writes, otherWrites] at h ⊢

/-- A frame that lists more pieces. -/
theorem Unchanged.mono {few many : List Part} {s t : State} (h : Unchanged few s t) (hsub : few ⊆ many) :
    Unchanged many s t :=
  ⟨fun r hr => h.reg r (mt (@hsub _) hr), fun hp => h.i (mt (@hsub _) hp), fun hp => h.slots (mt (@hsub _) hp),
    fun hp => h.sp (mt (@hsub _) hp), fun hp => h.dt (mt (@hsub _) hp), fun hp => h.st (mt (@hsub _) hp),
    fun hp => h.keys (mt (@hsub _) hp), fun hp => h.cells (mt (@hsub _) hp), fun hp => h.latch (mt (@hsub _) hp),
    fun hp => h.rnd (mt (@hsub _) hp), fun a ha => h.byte a (mt (@hsub _) ha)⟩

/-- A shift with SHIFT_SRC = VX changes its destination and VF alone (42 R106, R108). -/
theorem unchanged_shift_vx (s : State) (flag result : Byte → Byte) (x y : RegIdx) :
    Unchanged [.reg x, .reg vF] s (s.shift .vx flag result x y) :=
  ((Unchanged.refl _ s).setV _ (by simp)).setV _ (by simp)

/-- The completed state differs from the old one in what the instruction may write, and PC (10 R37). -/
theorem unchanged_completed (i : Instr) (s : State) : Unchanged (writes s i) s (s.completed i) := by
  cases i with
  | nop | jp _ | jpV0 _ | seByte _ _ | sneByte _ _ | seReg _ _ | sneReg _ _ | skp _ | sknp _ =>
    exact (Unchanged.refl [] s).setPc _
  | cls => exact (unchanged_setFb s _).advance
  | ret | call _ => exact .of (fun _ _ => rfl) (fun _ _ => rfl) (by simp [writes, otherWrites, State.completed])
  | ldByte x _ | addByte x _ | ldReg x _ | orReg x _ | andReg x _ | xorReg x _ | ldVxDt x =>
    exact (unchanged_setV s x _).advance
  | addReg x _ | subReg x _ | subnReg x _ => exact (unchanged_setResultThenFlag s x _ _).advance
  | shr x y | shl x y => exact (unchanged_shift_vx s _ _ x y).advance
  | ldI _ | addI _ | ldFont _ => exact (unchanged_setI s _).advance
  | rnd x _ => exact (((Unchanged.refl [.reg x, .rnd] s).rndByte (by simp)).setV _ (by simp)).advance
  | drw x y n => exact (unchanged_drawAt s x y _).advance
  | ldVxKey x =>
    cases hkey : leastKey s.key with
    | none =>
      simp only [State.completed, hkey]
      exact Unchanged.refl _ s
    | some k =>
      simp only [State.completed, hkey]
      exact (unchanged_setV s x _).advance
  | ldDtVx _ => exact (unchanged_setDt s _).advance
  | ldStVx _ => exact (unchanged_setSt s _).advance
  | ldBcd x => exact (unchanged_setBytes s _ (decimalDigits (s.getV x))).advance
  | storeRegs x =>
    have hframe := (unchanged_setBytes s s.i.toNat (s.regBlock x)).advance
    rwa [s.regBlock_length x] at hframe
  | loadRegs x => exact ((unchanged_loadBlock s x _).advance).mono (List.subset_append_left _ _)

/-- An instruction changes what it may write, the latch and PC, and nothing else (10 R37, 60 R133). -/
theorem exec_unchanged {i : Instr} {s t : State} (h : exec i s = .next t) : Unchanged (.latch :: writes s i) s t := by
  rcases exec_cases h with ⟨c, -, rfl⟩ | ⟨-, rfl⟩
  · exact .of (fun _ _ => rfl) (fun _ _ => rfl) (by simp)
  · exact (unchanged_completed i s).mono (List.subset_cons_self _ _)

end Sys2Proof.Machine
end

section
/-! PROOFS of the rules over all instructions (10 R37): totality, the fault table, and what each instruction may write. -/

namespace Sys2Proof.Machine

/-- Every step answers a next state: the same one, a fault's, or that of an instruction. -/
theorem step_next (s : State) : ∃ t, step s = .next t := by
  cases hfault : s.fault with
  | some r => exact ⟨s, step_faulted hfault⟩
  | none =>
    cases hfetch : s.fetch with
    | none => exact ⟨_, step_fetchFault hfault hfetch⟩
    | some op =>
      cases hdec : decodeWord op with
      | none => exact ⟨_, step_unknownOpcode hfault hfetch hdec⟩
      | some i => simpa only [step_exec hfault hfetch hdec] using exec_next i s

/-- Settles O9: an instruction raises or completes (`exec_next`), and a step that runs none answers all the same (`step_next`). -/
theorem everyStepAnswersNext : Obligations.EveryStepAnswersNext :=
  ⟨exec_next, step_next⟩

/-- Settles O11: the instruction raises or completes (`exec_cases`), and the latch is not among what a completed instruction may write. -/
theorem faultsExactlyWhenTabulated : Obligations.FaultsExactlyWhenTabulated := by
  intro i s t hexec
  rcases exec_cases hexec with ⟨c, hcond, rfl⟩ | ⟨hcond, rfl⟩
  · rw [hcond]
    exact s.raise_eq i c
  · rw [hcond]
    exact (unchanged_completed i s).latch latch_not_mem_writes

/-- Settles O16: each piece is kept unless the instruction may write it (`exec_unchanged`), and the lemmas about `writes` name the
instructions that may. -/
theorem onlyTheirInstructionsWriteState : Obligations.OnlyTheirInstructionsWriteState := by
  intro i s t hexec
  have frame := exec_unchanged hexec
  have kept {p : Part} (hlatch : p ≠ .latch) (hp : p ∉ writes s i) : p ∉ .latch :: writes s i :=
    List.not_mem_cons_of_ne_of_not_mem hlatch hp
  refine ⟨frame.keys (kept nofun keys_not_mem_writes), ?dt, ?st, ?fb, ?stack, ?sp, ?i, ?rnd, ?mem⟩ <;>
    refine or_iff_not_imp_right.mpr fun hother => ?_
  case dt => exact frame.dt (kept nofun (mt dt_mem_writes hother))
  case st => exact frame.st (kept nofun (mt st_mem_writes hother))
  case fb => exact frame.cells (kept nofun (mt cells_mem_writes hother))
  case stack => exact frame.slots (kept nofun (mt slots_mem_writes hother))
  case sp => exact frame.sp (kept nofun (mt sp_mem_writes hother))
  case i => exact frame.i (kept nofun (mt i_mem_writes hother))
  case rnd => exact frame.rnd (kept nofun (mt rnd_mem_writes hother))
  case mem => exact fun a => frame.byte a (kept nofun (mt byte_mem_writes hother))

/-- Settles O17: the registers an instruction may write are its destinations. -/
theorem onlyDestinationRegistersChange : Obligations.OnlyDestinationRegistersChange := by
  intro i s t r hexec hr
  exact (exec_unchanged hexec).reg r (List.not_mem_cons_of_ne_of_not_mem nofun (mt reg_mem_writes.mp hr))

end Sys2Proof.Machine
end

section
/-! SUPPORT. Two cores in step: a relation that survives every fault and every completed instruction survives a step. -/

namespace Sys2Proof.Machine

/-- Two states with the same condition, related when both raise and when both complete, are related after the instruction. -/
theorem exec_related {R : State → State → Prop} {s s' t : State} {i : Instr} (h : exec i s = .next t)
    (htake : ∀ opcode c, R (s.takeFault opcode c) (s'.takeFault opcode c))
    (hcond : faultCondition s' i = faultCondition s i)
    (hcompleted : faultCondition s i = none → R (s.completed i) (s'.completed i)) :
    ∃ t', exec i s' = .next t' ∧ R t t' := by
  rcases exec_cases h with ⟨c, hfault, rfl⟩ | ⟨hnone, rfl⟩
  · exact ⟨_, exec_of_faultCondition (hcond.trans hfault), htake _ c⟩
  · exact ⟨_, exec_of_noFault (hcond.trans hnone), hcompleted hnone⟩

/-- Two related states with the same latch, PC and memory, and the conditions as in `exec_related`, are related after a step. -/
theorem step_related {R : State → State → Prop} {s s' t : State} (h : step s = .next t) (hsame : R s s')
    (hlatch : s'.fault = s.fault) (hpc : s'.pc = s.pc) (hmem : s'.mem = s.mem)
    (htake : ∀ opcode c, R (s.takeFault opcode c) (s'.takeFault opcode c))
    (hcond : ∀ i, faultCondition s' i = faultCondition s i)
    (hcompleted : ∀ i, faultCondition s i = none → R (s.completed i) (s'.completed i)) :
    ∃ t', step s' = .next t' ∧ R t t' := by
  have hfetch : s'.fetch = s.fetch := State.fetch_congr hpc fun a => hmem ▸ rfl
  rcases step_cases h with ⟨hset, rfl⟩ | ⟨hclear, hout, rfl⟩ | ⟨op, hclear, -, hop, hdec, rfl⟩ |
    ⟨op, i, hclear, -, hop, hdec, hexec⟩
  · obtain ⟨r, hr⟩ := Option.ne_none_iff_exists'.mp hset
    exact ⟨s', step_faulted (hlatch.trans hr), hsame⟩
  · refine ⟨_, step_fetchFault (hlatch.trans hclear) (hfetch.trans (State.fetch_eq_none.mpr hout)), ?_⟩
    unfold State.fetchFault
    rw [hpc]
    exact htake _ _
  · exact ⟨_, step_unknownOpcode (hlatch.trans hclear) (hfetch.trans hop) hdec, htake _ _⟩
  · obtain ⟨t', ht', hR⟩ := exec_related hexec htake (hcond i) (hcompleted i)
    exact ⟨t', (step_exec (hlatch.trans hclear) (hfetch.trans hop) hdec).trans ht', hR⟩

end Sys2Proof.Machine
end

section
/-! PROOFS of noninterference (10 R27, R30, R32, R35): what a step does not read. -/

namespace Sys2Proof.Machine

/-- Settles O18: no completed state reads ST; Fx18 alone writes it. -/
theorem soundTimerIsNeverRead : Obligations.SoundTimerIsNeverRead := by
  intro s t b hstep
  have hrel := step_related (R := fun t t' => ∃ c, t' = { t with st := c }) (s' := { s with st := b }) hstep
    ⟨b, rfl⟩ rfl rfl rfl (fun _ _ => ⟨b, rfl⟩) (fun i => rfl) (fun i _ => ?completed)
  case completed =>
    cases i with
    | ldStVx x => exact ⟨s.getV x, rfl⟩
    | _ => exact ⟨b, rfl⟩
  obtain ⟨t', ht', c, rfl⟩ := hrel
  exact ⟨c, ht'⟩

/-- The second state differs from the first in slots that are not occupied, and in nothing else (10 R27). -/
def DifferInDeadSlots (s s' : State) : Prop :=
  ∃ slots : Vector Word 16, s' = { s with stack := slots } ∧ ∀ k : Fin 16, k.val < s.sp.val → slots[k.val] = s.stack[k.val]

/-- RET reads an occupied slot and CALL writes the first that is not, which is occupied afterwards (40 R92, R94); the other instructions
have nothing to do with the slots. -/
theorem DifferInDeadSlots.completed {s s' : State} (h : DifferInDeadSlots s s') {i : Instr} (hcond : faultCondition s i = none) :
    DifferInDeadSlots (s.completed i) (s'.completed i) := by
  obtain ⟨slots, rfl, hagree⟩ := h
  cases i with
  | ret =>
    have hocc : s.sp.val ≠ 0 := by
      intro hempty
      simp [faultCondition, hempty] at hcond
    have hlt : s.sp.val - 1 < 16 := by omega
    have htop : slots[s.sp.val - 1] = s.stack[s.sp.val - 1] := hagree ⟨s.sp.val - 1, hlt⟩ (by simp only; omega)
    refine ⟨slots, ?_, fun k hk => hagree k (Nat.lt_of_lt_of_le hk (Nat.sub_le _ _))⟩
    simp only [State.completed, Vector.getElem?_eq_getElem hlt, htop]
  | call nnn =>
    refine ⟨slots.setIfInBounds s.sp.val s.npc, rfl, fun k hk => ?_⟩
    have hle : k.val ≤ s.sp.val := Nat.le_of_lt_succ (Nat.lt_of_lt_of_le hk (Nat.mod_le _ _))
    simp only [State.completed, Vector.getElem_setIfInBounds]
    split
    next => rfl
    next hne => exact hagree k (Nat.lt_of_le_of_ne hle (Ne.symm hne))
  | _ => exact ⟨slots, rfl, hagree⟩

/-- Settles O19: `DifferInDeadSlots` survives every fault, which touches no slot, and every completed instruction. -/
theorem deadSlotsAreUnobservable : Obligations.DeadSlotsAreUnobservable := by
  intro s t slots hagree hstep
  have hrel : DifferInDeadSlots s { s with stack := slots } := ⟨slots, rfl, hagree⟩
  obtain ⟨t', ht', slots', rfl, hagree'⟩ := step_related hstep hrel rfl rfl rfl
    (fun _ _ => ⟨slots, rfl, hagree⟩) (fun _ => rfl) (fun i hcond => hrel.completed hcond)
  exact ⟨slots', ht', hagree'⟩

/-- How the ends of an instruction differ that starts from two states which differ in their framebuffers (10 R32). -/
def DifferInFramebuffer (i : Instr) (t t' : State) : Prop :=
  ∃ fb : Framebuffer, ((∀ x y n, i ≠ .drw x y n) ∧ t' = { t with fb := fb }) ∨
    ((∃ x y n, i = .drw x y n) ∧ ∃ b, t' = { t.setV vF b with fb := fb })

/-- A difference in the framebuffer alone is one that Dxyn may leave too: VF holds what it held. -/
theorem DifferInFramebuffer.of_eq (i : Instr) (t : State) (fb : Framebuffer) : DifferInFramebuffer i t { t with fb := fb } := by
  by_cases hdrw : ∃ x y n, i = .drw x y n
  · refine ⟨fb, .inr ⟨hdrw, t.getV vF, ?_⟩⟩
    rw [State.setV_getV]
  · exact ⟨fb, .inl ⟨fun x y n hi => hdrw ⟨x, y, n, hi⟩, rfl⟩⟩

/-- From another framebuffer Dxyn ends with other cells and another collision flag, and nothing else (44 R114). -/
theorem differInFramebuffer_drw (s : State) (x y : RegIdx) (n : Fin 16) (fb : Framebuffer) :
    DifferInFramebuffer (.drw x y n) (s.completed (.drw x y n)) ({ s with fb := fb }.completed (.drw x y n)) := by
  obtain ⟨cells, flag, hdraw⟩ := s.drawAt_eq x y (n.val + 1)
  obtain ⟨cells', flag', hdraw'⟩ := { s with fb := fb }.drawAt_eq x y (n.val + 1)
  refine ⟨cells', .inr ⟨⟨x, y, n, rfl⟩, flag', ?_⟩⟩
  simp only [State.completed, hdraw, hdraw', State.setV, State.setFb, State.advance, State.setPc, State.npc, Vector.set_set]

/-- Settles O20: of the completed states only that of Dxyn reads the framebuffer, and beside the framebuffer it writes VF alone. -/
theorem framebufferReachesOnlyTheDrawFlag : Obligations.FramebufferReachesOnlyTheDrawFlag := by
  intro i s t fb hexec
  have hrel := exec_related (R := DifferInFramebuffer i) (s' := { s with fb := fb }) hexec
    (fun opcode c => .of_eq i (s.takeFault opcode c) fb) rfl (fun _ => ?completed)
  case completed =>
    cases i with
    | drw x y n => exact differInFramebuffer_drw s x y n fb
    | cls => exact .of_eq _ (s.completed .cls) Framebuffer.clear
    | _ => exact .of_eq _ _ fb
  obtain ⟨t', ht', fb', hdiffer⟩ := hrel
  exact ⟨fb', t', ht', hdiffer⟩

/-- Cxkk ends with the byte drawn, masked, in Vx (43 R113). -/
theorem completed_rnd (s : State) (x : RegIdx) (kk : Byte) :
    s.completed (.rnd x kk) = (s.rndByte.2.setV x (s.rndByte.1 &&& kk)).advance := rfl

/-- Settles O21: of the completed states only that of Cxkk reads the place in the random input, to take one byte there. -/
theorem randomInputReachesOnlyRnd : Obligations.RandomInputReachesOnlyRnd := by
  intro i s t n hexec
  constructor
  · intro hother
    have hrel := exec_related (R := fun t t' => t' = { t with rndIndex := n }) (s' := { s with rndIndex := n })
      hexec (fun _ _ => rfl) rfl (fun _ => ?completed)
    case completed =>
      cases i with
      | rnd x kk => exact absurd rfl (hother x kk)
      | _ => rfl
    obtain ⟨t', ht', rfl⟩ := hrel
    exact ht'
  · intro hbyte
    have hrel := exec_related (R := fun t t' => ∃ m, t' = { t with rndIndex := m }) (s' := { s with rndIndex := n })
      hexec (fun _ _ => ⟨n, rfl⟩) rfl (fun _ => ?completed)
    case completed =>
      cases i with
      | rnd x kk =>
        refine ⟨n + 1, ?_⟩
        simp only [completed_rnd, State.rndByte_fst, hbyte]
        rfl
      | _ => exact ⟨n, rfl⟩
    obtain ⟨t', ht', m, rfl⟩ := hrel
    exact ⟨m, ht'⟩

end Sys2Proof.Machine
end

section
/-! SUPPORT. How each instruction keeps the invariant (10 R26, 20 R50, 60 R132): bounds of PC, and the states reached by moving PC. -/

namespace Sys2Proof.Machine

/-- PC after the fetch of an instruction, which lies at 4094 at most (20 R55), is 4096 at most. -/
theorem State.npc_le {s : State} (h : s.pc.toNat ≤ 4094) : s.npc.toNat ≤ 0x1000 := by
  rw [State.npc_toNat]
  omega

/-- PC after a skip is 4098 at most (41, introduction). -/
theorem State.skipIf_pc_le {s : State} (h : s.pc.toNat ≤ 4094) (cond : Bool) : (s.skipIf cond).pc.toNat ≤ 0x1002 := by
  have hnpc := State.npc_le h
  rw [State.skipIf_pc]
  split
  · bv_omega
  · omega

/-- A state with the slots of one that meets the invariant and not more of them occupied, canonical memory, PC in its bound and no
fault record meets the invariant. -/
theorem State.Inv.of_slots {s t : State} (hs : s.Inv) (hstack : t.stack = s.stack) (hsp : t.sp.val ≤ s.sp.val)
    (hmem : Memory.wf t.mem = true) (hpc : t.pc.toNat ≤ 0x10FE) (hclear : t.fault = none) : t.Inv where
  mem_wf := hmem
  pc_le := hpc
  slots_le k hk := by
    simp only [hstack]
    exact hs.slots_le k (Nat.lt_of_lt_of_le hk hsp)
  fault_pc r hr := by simp [hclear] at hr

/-- The completed state of an instruction fetched from memory meets the invariant. The largest PC is that of Bnnn (43 R112), and CALL
pushes an address of 4096 at most. -/
theorem State.Inv.completed {s : State} (hs : s.Inv) (hclear : s.fault = none) (hpc : s.pc.toNat ≤ 4094) {i : Instr}
    (hcond : faultCondition s i = none) : (s.completed i).Inv := by
  have hnpc := State.npc_le hpc
  have hnext : s.npc.toNat ≤ 0x10FE := Nat.le_trans hnpc (by decide)
  have hskip (cond : Bool) : (s.skipIf cond).pc.toNat ≤ 0x10FE := by
    have := State.skipIf_pc_le hpc cond
    omega
  cases i with
  | jp nnn =>
    refine hs.of_slots rfl le_rfl hs.mem_wf ?_ hclear
    have hnnn := nnn.isLt
    show (addrOf nnn).toNat ≤ 0x10FE
    rw [addrOf_toNat]
    omega
  | jpV0 nnn =>
    refine hs.of_slots rfl le_rfl hs.mem_wf ?_ hclear
    have hnnn := nnn.isLt
    have hv0 := (s.getV 0).isLt
    show (addrOf nnn + (s.getV 0).setWidth 16).toNat ≤ 0x10FE
    rw [addrOf_add_byte_toNat]
    omega
  | seByte _ _ | sneByte _ _ | seReg _ _ | sneReg _ _ | skp _ | sknp _ =>
    exact hs.of_slots rfl le_rfl hs.mem_wf (hskip _) hclear
  | ret =>
    have hocc : s.sp.val ≠ 0 := by
      intro hempty
      simp [faultCondition, hempty] at hcond
    have hlt : s.sp.val - 1 < 16 := by omega
    refine hs.of_slots rfl (Nat.sub_le _ _) hs.mem_wf ?_ hclear
    have htop : (s.stack[s.sp.val - 1]).toNat ≤ 0x1000 := hs.slots_le ⟨s.sp.val - 1, hlt⟩ (by simp only; omega)
    simp only [State.completed, Vector.getElem?_eq_getElem hlt, Option.getD_some]
    omega
  | call nnn =>
    refine ⟨hs.mem_wf, ?pc, fun k hk => ?slot, fun r hr => ?record⟩
    case pc =>
      have hnnn := nnn.isLt
      show (addrOf nnn).toNat ≤ 0x10FE
      rw [addrOf_toNat]
      omega
    case slot =>
      have hle : k.val ≤ s.sp.val := Nat.le_of_lt_succ (Nat.lt_of_lt_of_le hk (Nat.mod_le _ _))
      simp only [State.completed, Vector.getElem_setIfInBounds]
      split
      next => exact hnpc
      next hne => exact hs.slots_le k (Nat.lt_of_le_of_ne hle (Ne.symm hne))
    case record =>
      have hnone : s.fault = some r := hr
      simp [hclear] at hnone
  | ldVxKey x =>
    refine hs.of_slots rfl le_rfl hs.mem_wf ?_ hclear
    cases hkey : leastKey s.key with
    | none => simpa only [State.completed, hkey, Option.elim_none] using hs.pc_le
    | some k => simpa only [State.completed, hkey, Option.elim_some] using hnext
  | ldBcd x =>
    refine hs.of_slots rfl le_rfl (Memory.wf_setBytes hs.mem_wf ?_) hnext hclear
    have hin : s.i.toNat + 2 ≤ 4095 := by simpa [faultCondition] using hcond
    exact Nat.succ_le_succ hin
  | storeRegs x =>
    refine hs.of_slots rfl le_rfl (Memory.wf_setBytes hs.mem_wf ?_) hnext hclear
    have hin : s.i.toNat + x.val ≤ 4095 := by simpa [faultCondition] using hcond
    rw [State.regBlock_length]
    exact Nat.succ_le_succ hin
  | loadRegs x =>
    refine hs.of_slots ?_ ?_ ?_ ?pc ?_
    case pc => rwa [State.completed, State.advance_pc, State.loadBlock_pc]
    all_goals simp [State.completed, hs.mem_wf, hclear]
  | _ => exact hs.of_slots rfl le_rfl hs.mem_wf hnext hclear

/-- A step keeps the invariant: what it does is nothing, a fault (`State.Inv.takeFault`), or an instruction that raises or completes. -/
theorem State.Inv.step {s t : State} (hs : s.Inv) (hstep : step s = .next t) : t.Inv := by
  rcases step_cases hstep with ⟨-, rfl⟩ | ⟨-, -, rfl⟩ | ⟨op, -, -, -, -, rfl⟩ | ⟨op, i, hclear, hpc, -, -, hexec⟩
  · exact hs
  · exact hs.takeFault _ _
  · exact hs.takeFault _ _
  · rcases exec_cases hexec with ⟨c, -, rfl⟩ | ⟨hcond, rfl⟩
    · exact hs.takeFault _ _
    · exact hs.completed hclear hpc hcond

/-- Power-on meets the invariant, whatever FONT is. -/
theorem inv_powerOn (font : Font) : (State.powerOn font).Inv where
  mem_wf := Memory.wf_powerOn font
  pc_le := show (0x0200 : Word).toNat ≤ 0x10FE by decide
  slots_le _ hk := absurd hk (Nat.not_lt_zero _)
  fault_pc _ hr := nomatch hr

end Sys2Proof.Machine
end

section
/-! PROOFS of the invariant (10 R26, 60 R132): power-on, the step, and every run of events. -/

namespace Sys2Proof.Machine

/-- Settles O13: the power-on states meet the invariant, and reset is that of the default FONT (`State.powerOn_default`). -/
theorem resetMeetsInvariant : Obligations.ResetMeetsInvariant :=
  ⟨inv_powerOn, State.powerOn_default ▸ inv_powerOn Params.font, State.powerOn_default⟩

/-- Settles O14, by `State.Inv.step`: the faults of the step and of the instruction, and the completed state of each instruction. -/
theorem stepKeepsInvariant : Obligations.StepKeepsInvariant :=
  fun _ _ hs hstep => hs.step hstep

/-- `STEP` as an event ends where the step does. -/
theorem State.stepEvent_fst {s t : State} (h : step s = .next t) : s.stepEvent.1 = t := by
  simp only [State.stepEvent, h]
  split <;> rfl

/-- Every host event keeps the invariant (60 R147). -/
theorem State.Inv.event {s : State} (hs : s.Inv) (font : Font) (e : Event) : (s.event font e).1.Inv := by
  cases e with
  | reset =>
    have hon := inv_powerOn font
    exact ⟨hon.mem_wf, hon.pc_le, hon.slots_le, hon.fault_pc⟩
  | load data =>
    by_cases hfits : data.length ≤ 3584
    · simp only [State.event, State.load_of_fits s hfits]
      refine ⟨Memory.wf_setBytes hs.mem_wf ?_, hs.pc_le, hs.slots_le, hs.fault_pc⟩
      simp only [Config.memSize]
      omega
    · simp only [State.event, State.load_of_too_long s (Nat.lt_of_not_le hfits)]
      exact hs
  | step =>
    obtain ⟨t, hstep⟩ := step_next s
    rw [State.event, State.stepEvent_fst hstep]
    exact hs.step hstep
  | timerTick | key _ _ => exact ⟨hs.mem_wf, hs.pc_le, hs.slots_le, hs.fault_pc⟩

/-- Settles O15, by induction on the events. -/
theorem runsKeepInvariant : Obligations.RunsKeepInvariant := by
  intro font s events hs
  induction events generalizing s with
  | nil => exact hs
  | cons e events ih => exact ih _ (hs.event font e)

end Sys2Proof.Machine
end

section
/-! PROOFS of the shifts (42 R106, R108) and of the draw's other row counts (44 R116). -/

namespace Sys2Proof.Machine

theorem lowBitFlag_toNat (b : Byte) : (lowBitFlag b).toNat = b.toNat % 2 :=
  Nat.mod_eq_of_lt (show b.toNat % 2 < 2 ^ 8 by omega)

theorem topBitFlag_toNat (b : Byte) : (topBitFlag b).toNat = b.toNat / 128 := by
  have hb := b.isLt
  exact Nat.mod_eq_of_lt (show b.toNat / 128 < 2 ^ 8 by omega)

theorem shiftRight_one_toNat (b : Byte) : (b >>> 1).toNat = b.toNat / 2 := by
  rw [BitVec.toNat_ushiftRight, Nat.shiftRight_eq_div_pow]

theorem shiftLeft_one_toNat (b : Byte) : (b <<< 1).toNat = b.toNat * 2 % 256 := by
  rw [BitVec.toNat_shiftLeft, Nat.shiftLeft_eq]

/-- A shift of this hardware completes, whatever `y` is: with another destination than VF, VF is the flag and the destination the result;
with VF as destination, the flag is what is shifted (decision D14). -/
theorem exec_shift_vx {s : State} {i : Instr} {x y : RegIdx} {flag result : Byte → Byte}
    (hexec : exec i s = .next (s.shift .vx flag result x y).advance) :
    ∃ t, exec i s = .next t ∧ t.pc = s.pc + 2 ∧
      (x ≠ vF → t.getV vF = flag (s.getV x) ∧ t.getV x = result (s.getV x)) ∧
      (x = vF → t.getV vF = result (flag (s.getV vF))) ∧ Unchanged [.reg x, .reg vF] s t := by
  refine ⟨_, hexec, rfl, fun hx => ⟨?flag, ?result⟩, fun hx => ?both, (unchanged_shift_vx s flag result x y).advance⟩
  case flag => simp [State.getV_shift_vx, Ne.symm hx]
  case result => simp [State.getV_shift_vx, hx]
  case both => simp [State.getV_shift_vx, hx]

/-- Settles O38: each of the two is one shift of Vx (`exec_shift_vx`); a flag of one bit is shifted out by SHR and doubled by SHL. -/
theorem shiftsReportTheBitOut : Obligations.ShiftsReportTheBitOut := by
  intro s x y
  constructor
  · obtain ⟨t, ht, hpc, hother, hself, hframe⟩ := exec_shift_vx (s := s) (i := .shr x y) rfl
    refine ⟨t, ht, hpc, fun hx => ?_, fun hx => ?_, hframe⟩
    · obtain ⟨hflag, hresult⟩ := hother hx
      rw [hflag, hresult]
      exact ⟨lowBitFlag_toNat _, shiftRight_one_toNat _⟩
    · rw [hself hx]
      apply BitVec.eq_of_toNat_eq
      rw [shiftRight_one_toNat, lowBitFlag_toNat]
      exact Nat.div_eq_of_lt (Nat.mod_lt _ Nat.two_pos)
  · obtain ⟨t, ht, hpc, hother, hself, hframe⟩ := exec_shift_vx (s := s) (i := .shl x y) rfl
    refine ⟨t, ht, hpc, fun hx => ?_, fun hx => ?_, hframe⟩
    · obtain ⟨hflag, hresult⟩ := hother hx
      rw [hflag, hresult]
      exact ⟨topBitFlag_toNat _, shiftLeft_one_toNat _⟩
    · have hvf := (s.getV vF).isLt
      rw [hself hx, shiftLeft_one_toNat, topBitFlag_toNat]
      split <;> omega

/-- With another destination than VF, the variant SHIFT_SRC = VY is a result and then a flag, both of Vy (42 R106, R108). -/
theorem State.shift_vy {s : State} {flag result : Byte → Byte} {x y : RegIdx} (hx : x ≠ vF) :
    s.shift .vy flag result x y = s.setResultThenFlag x (result (s.getV y)) (flag (s.getV y)) :=
  if_neg hx

/-- Settles O39: `State.shift_vy`, with the flags and the shifts as numbers. -/
theorem shiftVariantShiftsVy : Obligations.ShiftVariantShiftsVy := by
  intro s x y hx
  simp only [State.shift_vy hx, State.getV_setResultThenFlag, if_neg hx, if_true]
  exact ⟨shiftRight_one_toNat _, lowBitFlag_toNat _, shiftLeft_one_toNat _, topBitFlag_toNat _, rfl, rfl,
    unchanged_setResultThenFlag s x _ _, unchanged_setResultThenFlag s x _ _⟩

/-- A draw whose rows are in memory is `State.drawAt` of its row count, whatever DRAW_ROWS is (44 R116). -/
theorem State.draw_inside {s : State} {mode : DrawRows} {n : Fin 16} (x y : RegIdx)
    (h : drawRowCount mode n = 0 ∨ s.i.toNat + drawRowCount mode n ≤ 4096) :
    s.draw mode x y n = (s.drawAt x y (drawRowCount mode n)).advance := by
  simp only [State.draw, accessFault_eq_none.mpr h]

/-- A draw with a row above address 4095 raises, whatever DRAW_ROWS is (44 R116). -/
theorem State.draw_outside {s : State} {mode : DrawRows} {n : Fin 16} (x y : RegIdx) (hrows : 0 < drawRowCount mode n)
    (h : s.i.toNat + drawRowCount mode n > 4096) :
    s.draw mode x y n = { s with fault := some (recordOf s (.drw x y n) (.outOfBounds .dataRead (max s.i.toNat 4096))) } := by
  simp only [State.draw, accessFault_outside h hrows, State.raise_eq]

/-- Two draws inside memory with the same row count are the same (44 R116). -/
theorem State.draw_eq_of_rowCount {s : State} {mode mode' : DrawRows} {n m : Fin 16} (x y : RegIdx)
    (hcount : drawRowCount mode n = drawRowCount mode' m) (h : s.i.toNat + drawRowCount mode' m ≤ 4096) :
    s.draw mode x y n = s.draw mode' x y m := by
  rw [State.draw_inside x y (.inr (hcount ▸ h)), State.draw_inside x y (.inr h), hcount]

/-- Settles O45: the row counts, and a draw inside and outside memory for any row count. -/
theorem otherDrawRowsDifferInCountOnly : Obligations.OtherDrawRowsDifferInCountOnly := by
  intro s x y
  have hext16 {n : Fin 16} (hn : n.val > 0) : drawRowCount .ext16 n = drawRowCount .strict n := if_neg (Nat.ne_of_gt hn)
  refine ⟨?strictZero, fun n m hnm hin => ⟨?strict, ?ext16⟩, fun hin => ?ext16Zero, fun hout => ?ext16ZeroOut,
    fun n hn => ?ext16IsStrict, fun n hout hn => ?strictOut⟩
  case strictZero => exact State.draw_inside x y (.inl rfl)
  case strict => exact State.draw_eq_of_rowCount x y hnm.symm (Nat.succ_le_succ hin)
  case ext16 => exact State.draw_eq_of_rowCount x y ((hext16 (by omega)).trans hnm.symm) (Nat.succ_le_succ hin)
  case ext16Zero => exact State.draw_eq_of_rowCount x y rfl (Nat.succ_le_succ hin)
  case ext16ZeroOut => exact State.draw_outside x y (by decide) (Nat.succ_lt_succ hout)
  case ext16IsStrict => simp only [State.draw, hext16 hn]
  case strictOut => exact State.draw_outside x y hn hout

end Sys2Proof.Machine
end

section
/-! PROOFS of what a CALL and a RET, and two draws, do together (40 R92, R94; 44 R115). -/

namespace Sys2Proof.Machine

/-- Settles O32: CALL puts npc in the slot that SP named (O30) and RET reads the slot below SP, which is that one (O31). -/
theorem callThenRetReturns : Obligations.CallThenRetReturns := by
  intro s t u nnn hfree hcall hsp hslots
  obtain ⟨t', hcall', -, hspt, htop, hkept, -⟩ := (callPushesAndJumps s nnn).1 hfree
  obtain rfl : t' = t := Host.Outcome.next.inj (hcall'.symm.trans hcall)
  have hspu : u.sp.val = s.sp.val + 1 := hsp ▸ hspt
  have hidx : u.sp.val - 1 = s.sp.val := by omega
  obtain ⟨w, hret, hpc, hspw, hframe⟩ := (retPopsPc u).1 (by omega)
  have hstack : w.stack = t'.stack := (hframe.slots (by simp)).trans hslots
  refine ⟨w, hret, ?pc, Fin.ext (by omega), fun k hk => ?slot⟩
  case pc => simpa only [hidx, hslots, htop] using hpc
  case slot => simpa only [hstack] using hkept k (Nat.ne_of_lt hk)

/-- Which cells a sprite covers is kept by a change of the cells and of VF, when neither coordinate is VF (44 R114). -/
theorem spriteCovers_of_unchanged {s t : State} (h : Unchanged [.reg vF, .cells] s t) {x y : RegIdx} (hx : x ≠ vF) (hy : y ≠ vF)
    {rows : Nat} {xx : Fin 64} {yy : Fin 32} : SpriteCovers t x y rows xx yy ↔ SpriteCovers s x y rows xx yy := by
  simp only [SpriteCovers, h.reg x (by simp [hx]), h.reg y (by simp [hy]), h.i (by simp), h.byte _ (by simp)]

/-- Settles O43: the second draw covers the same cells (`spriteCovers_of_unchanged`) and inverts them back, and it finds a covered cell
set exactly when the first found it clear. -/
theorem drawTwiceRestores : Obligations.DrawTwiceRestores := by
  intro s x y n hin hx hy
  obtain ⟨t, ht, -, hcovered, hother, -, -, hframe⟩ := (drawXorsSpriteAndReportsCollision s x y n).1 hin
  have hin' : t.i.toNat + n.val ≤ 4095 := (hframe.i (by simp)).symm ▸ hin
  obtain ⟨u, hu, -, hcovered', hother', hcollision, hclear, -⟩ := (drawXorsSpriteAndReportsCollision t x y n).1 hin'
  simp only [spriteCovers_of_unchanged hframe hx hy] at hcovered' hother' hcollision hclear
  refine ⟨t, u, ht, hu, Framebuffer.ext_cell fun xx yy => ?cell, ?flag⟩
  case cell =>
    by_cases hc : SpriteCovers s x y (n.val + 1) xx yy
    · rw [hcovered' xx yy hc, hcovered xx yy hc, Bool.not_not]
    · rw [hother' xx yy hc, hother xx yy hc]
  case flag =>
    constructor
    · intro hvf
      by_contra hnone
      have hzero : u.getV vF = 0 := hclear fun xx yy hc => by
        rw [hcovered xx yy hc, Bool.not_eq_false']
        exact Bool.eq_true_of_not_eq_false fun hcell => hnone ⟨xx, yy, hc, hcell⟩
      exact absurd (hvf.symm.trans hzero) (by decide)
    · rintro ⟨xx, yy, hc, hcell⟩
      exact hcollision ⟨xx, yy, hc, by rw [hcovered xx yy hc, hcell]; rfl⟩

/-- Settles O44: no covered cell was set, and inverting a clear cell sets it. -/
theorem drawOnClearScreen : Obligations.DrawOnClearScreen := by
  intro s x y n hin hblank
  obtain ⟨t, ht, -, hcovered, hother, -, hclear, -⟩ := (drawXorsSpriteAndReportsCollision s x y n).1 hin
  refine ⟨t, ht, hclear fun xx yy _ => hblank xx yy, fun xx yy => ?_⟩
  by_cases hc : SpriteCovers s x y (n.val + 1) xx yy
  · simp [hcovered xx yy hc, hblank xx yy, hc]
  · simp [hother xx yy hc, hblank xx yy, hc]

end Sys2Proof.Machine
end

section
/-! PROOFS of what the register block, the fetch and the step do together (20 section 6, 46 R126, R127, 60 R148, 70 R165, R174). -/

namespace Sys2Proof.Machine

/-- Settles O6: the two bytes decode as their word does, and that word is the one fetched. -/
theorem stepRunsDecodedInstruction : Obligations.StepRunsDecodedInstruction :=
  fun _ _ hclear hpc hdec => step_exec hclear (State.fetch_eq hpc) (decodeWord_of_decodeBytes hdec)

/-- Settles O52: Fx65 reads (O51) what Fx55 has written (O50) at the same addresses. -/
theorem blockLoadUndoesBlockStore : Obligations.BlockLoadUndoesBlockStore := by
  intro s t u x hin hstore hi hmem
  obtain ⟨t', hstore', -, hstored, -⟩ := (blockStoreWritesRegisters s x).1 hin
  obtain rfl : t' = t := Host.Outcome.next.inj (hstore'.symm.trans hstore)
  obtain ⟨w, hload, -, hloaded, -⟩ := (blockLoadReadsRegisters u x).1 (hi ▸ hin)
  refine ⟨w, hload, fun r hr => ?_⟩
  rw [hloaded r hr, hmem, hi, hstored r hr]

/-- Settles O53: the next fetch reads the bytes at I and I + 1, where Fx55 has put V0 and V1 (O50). -/
theorem storedCodeIsFetchedNext : Obligations.StoredCodeIsFetchedNext := by
  intro s t x hx hi hin hstore
  obtain ⟨t', hstore', hpc, hstored, -⟩ := (blockStoreWritesRegisters s x).1 hin
  obtain rfl : t' = t := Host.Outcome.next.inj (hstore'.symm.trans hstore)
  have hpci : t'.pc = s.i := hpc.trans hi.symm
  have hv0 : Memory.get t'.mem s.i.toNat = s.getV 0 := hstored 0 (Fin.zero_le x)
  have hv1 : Memory.get t'.mem (s.i.toNat + 1) = s.getV 1 := hstored 1 hx
  refine ⟨_, State.fetch_eq (by rw [hpci]; omega), ?_⟩
  rw [wordOfBytes_toNat, hpci, hv0, hv1]

/-- Two zero bytes at PC are a NOP (40 R90): the step advances PC and does nothing else. -/
theorem step_of_zeros {s : State} (hclear : s.fault = none) (hpc : s.pc.toNat ≤ 4094) (hhi : Memory.get s.mem s.pc.toNat = 0)
    (hlo : Memory.get s.mem (s.pc.toNat + 1) = 0) : step s = .next s.advance := by
  have hfetch := State.fetch_eq hpc
  rw [hhi, hlo] at hfetch
  exact step_exec (i := .nop) hclear hfetch rfl

/-- Settles O54, by induction on the number of NOPs; behind the last one PC is 4096, where the fetch fails. -/
theorem zeroedMemoryRunsAsNops : Obligations.ZeroedMemoryRunsAsNops := by
  intro k
  induction k with
  | zero =>
    intro s hclear _ _
    refine ⟨?_, fun hend => ?_⟩
    · simp [Host.Core.run]
    · have hpc : s.pc = 0x1000 := BitVec.eq_of_toNat_eq hend
      have hstep := step_fetchFault hclear (State.fetch_eq_none.mpr (show s.pc.toNat > 4094 by omega))
      rw [run_succ 0 hstep]
      simp [Host.Core.run, State.fetchFault, State.takeFault, hpc]
  | succ k ih =>
    intro s hclear hend hzero
    have hstep := step_of_zeros hclear (by omega) (hzero _ (by omega) (by omega)) (hzero _ (by omega) (by omega))
    have hpc : s.advance.pc.toNat = s.pc.toNat + 2 := by
      have := s.npc_toNat
      show s.npc.toNat = _
      omega
    obtain ⟨hrun, hfault⟩ := ih s.advance hclear (by omega) (fun a hlow hhigh => hzero a (by omega) (by omega))
    rw [run_succ _ hstep, run_succ _ hstep]
    have hsum : s.pc + 2 + BitVec.ofNat 16 (2 * k) = s.pc + BitVec.ofNat 16 (2 * (k + 1)) := by
      rw [Nat.mul_succ, Nat.add_comm, BitVec.ofNat_add, BitVec.add_assoc]
      rfl
    exact ⟨hsum ▸ hrun, fun hlast => hfault (by omega)⟩

/-- An address in memory fits the 12 bits of a target (30 R72). -/
theorem setWidth_12_toNat {pc : Word} (h : pc.toNat < 4096) : (pc.setWidth 12).toNat = pc.toNat :=
  (BitVec.toNat_setWidth 12 pc).trans (Nat.mod_eq_of_lt h)

/-- A jump to its own address is the word of JP with PC as its target (70 R174). -/
theorem selfJump_eq_encode {pc : Word} (h : pc.toNat < 4096) : 0x1000 ||| pc = encode (.jp (pc.setWidth 12)) := by
  apply BitVec.eq_of_toNat_eq
  rw [encode, wordNNN_toNat, setWidth_12_toNat h, BitVec.toNat_or]
  exact (Nat.two_pow_add_eq_or_of_lt (i := 12) h 1).symm

/-- Settles O55: the step at a jump to itself leaves the state, and so does any number of them. -/
theorem selfJumpStandsStill : Obligations.SelfJumpStandsStill := by
  intro s k hjump
  obtain ⟨hclear, hfetch⟩ : s.fault = none ∧ s.fetch = some (0x1000 ||| s.pc) := by
    simpa [State.atSelfJump, State.faulted] using hjump
  have hpc : s.pc.toNat < 4096 := by
    by_contra hout
    rw [State.fetch_eq_none.mpr (by omega)] at hfetch
    cases hfetch
  have hdec : decodeWord (0x1000 ||| s.pc) = some (.jp (s.pc.setWidth 12)) :=
    selfJump_eq_encode hpc ▸ decodeWord_encode _
  have htarget : addrOf (s.pc.setWidth 12) = s.pc :=
    BitVec.eq_of_toNat_eq ((addrOf_toNat _).trans (setWidth_12_toNat hpc))
  have hstep : step s = .next s := by
    rw [step_exec hclear hfetch hdec, exec, execJp, htarget, State.setPc]
  induction k with
  | zero => rfl
  | succ k ih => exact (run_succ k hstep).trans ih

end Sys2Proof.Machine
end
